-- ==== Sys2Proof/Word.lean ====
section
/-! DEFINITION. The machine's two word types (00_scope R7, R8): bytes of 8 bits and program-memory addresses of
16 bits, both unsigned, bit 0 the least significant. -/

namespace Sys2Proof

/-- A byte: `A`, `X`, `P`, an opcode, an operand, a byte of the program (00_scope R7, R8). -/
abbrev Byte := BitVec 8

/-- A 16-bit word: `PC`, the length `L`, an address recorded by a fault (00_scope R7). -/
abbrev Addr := BitVec 16

end Sys2Proof
end

