-- ==== Sys2Proof/Config.lean ====
section
/-! DEFINITION. The implementation parameters of 00_scope R7 that are values (the widths are types, in Word.lean).
There is no free value: the spec leaves no result open (93_implementation_defined §1). -/

namespace Sys2Proof.Config

/-- `MAX_PROGRAM_LEN` (00_scope R7, 70_reset_and_hazards R100; the spec's decision D3). -/
def maxProgramLen : Nat := 0xFFFF

/-- What an in-bounds address of the program that the cell list does not list reads as.
DESIGN CHOICE (log 3), safe: it is how a program byte 0x00 is held, not a value for a byte nobody supplied. -/
def unlistedByte : Byte := 0x00#8

end Sys2Proof.Config
end

