-- ==== Sys2Proof/Machine/State.lean ====
section
/-! DEFINITION. The state of the machine (10_state §1 to §6, 20_memory R34 and R35), its faults, its refusals, and the
state right after reset. -/

namespace Sys2Proof.Machine

/-- The run status `RS` (10_state R29). -/
inductive RunStatus where
  | running
  | halted
  | faulted
deriving DecidableEq, Repr

/-- Which byte a fetch was reading (60_exceptions R79, the field `phase`). -/
inductive FetchPhase where
  | opcode
  | operand
deriving DecidableEq, Repr

/-- The two faults of 60_exceptions R79, with the information each records; a value of this type is what `FR` holds.
A fault's entry is described by the spec (60_exceptions R78, R82), so raising one is a NEXT state, with `RS` Faulted
and the fault in `FR`; a step never answers `Outcome.fault` (log 1). -/
inductive Fault where
  /-- OutOfBounds, code 1: a fetch at `addr >= L`. Raised by the opcode fetch of every step and by LDA's operand fetch
  (40_engine R62, R65). Safe: it is the spec's own fault. -/
  | outOfBounds (addr : Addr) (phase : FetchPhase)
  /-- UnknownOpcode, code 2: the byte `opcode`, fetched at `offset`, has no dispatch arm. Raised by the dispatch
  (40_engine R64, 60_exceptions R81). Safe: it is the spec's own fault. -/
  | unknownOpcode (opcode : Byte) (offset : Addr)
deriving DecidableEq, Repr

/-- Why a move is turned away. No instruction is refused: the last two are refusals of HOST moves. -/
inductive Refusal where
  /-- An instruction without a meaning. Raised by an arm of `exec`; no arm is one. Safe. -/
  | notModelled (mnemonic : String)
  /-- A load of more than `MAX_PROGRAM_LEN` bytes, `length` of them. Raised by the host's load (70_reset_and_hazards
  R100, "the load is refused and no run starts"). Safe. -/
  | programTooLong (length : Nat)
  /-- A load or a start while `RS` is Running. Raised by the host's moves (70_reset_and_hazards R103, 93 U8: "refuse").
  Safe: a host that breaks its duty is outside every claim. -/
  | hostMoveDuringRun
deriving DecidableEq, Repr

/-- The program memory (20_memory R34, R35): the length `L` and the bytes at addresses 0 to `L - 1`. `cells` lists them
in one canonical form (`Memory.wf`); an address below `len` that is not listed reads as `Config.unlistedByte` (log 3). -/
structure Memory where
  /-- `L`, a 16-bit value fixed for the run -/
  len : Addr
  cells : List Host.Cell
deriving DecidableEq, Repr

/-- The state: `A`, `X`, `P`, `PC`, `RS` and `FR` together with the read-only program (10_state R31). -/
structure State where
  /-- the accumulator `A` (10_state R15) -/
  a : Byte
  /-- the index register `X` (10_state R16) -/
  x : Byte
  /-- the status byte `P` (10_state R18), all eight bits stored -/
  p : Byte
  /-- the program counter `PC` (10_state R24) -/
  pc : Addr
  /-- the run status `RS` (10_state R29) -/
  rs : RunStatus
  /-- the fault record `FR` (10_state R30) -/
  fr : Option Fault
  /-- the program memory (20_memory R34) -/
  mem : Memory
deriving DecidableEq, Repr

/-- The start state of a run (10_state R32, 70_reset_and_hazards R96), with the empty program: reset supplies no
program, the loader does (log 4). -/
def State.reset : State where
  a := 0x00#8
  x := 0x00#8
  p := 0x00#8
  pc := 0x0000#16
  rs := .running
  fr := none
  mem := { len := 0#16, cells := [] }

end Sys2Proof.Machine
end

