-- ==== Sys2Proof/Machine/Ops.lean ====
section
/-! DEFINITION. The named operations over memory and registers, the ALU, and taking a fault. There is no return from a
fault: 60_exceptions R88. -/

namespace Sys2Proof.Machine

/-! ### Program memory (20_memory) -/

/-- `InBounds(addr)`: `addr < L` (20_memory R36). -/
def Memory.inBounds (m : Memory) (addr : Nat) : Bool :=
  decide (addr < m.len.toNat)

/-- The byte a cell list holds at an address. -/
def cellAt : List Host.Cell → Nat → Byte
  | [], _ => Config.unlistedByte
  | (k, b) :: cs, addr => if k = addr then b else cellAt cs addr

/-- `MemRead(addr, 1)` (20_memory R37), with its bound check: `none` when `addr` is not in bounds, where it is not
defined and nothing is read (20_memory R36). -/
def Memory.read? (m : Memory) (addr : Nat) : Option Byte :=
  if m.inBounds addr then some (cellAt m.cells addr) else none

/-- The canonical form of a cell list between two bounds: addresses strictly rising, each at least `lo` and below
`hi`, and no entry equal to what an unlisted address reads as. -/
def cellsWf (lo hi : Nat) : List Host.Cell → Bool
  | [] => true
  | (k, b) :: cs => decide (lo ≤ k) && decide (k < hi) && decide (b ≠ Config.unlistedByte) && cellsWf (k + 1) hi cs

/-- The canonical form of the program memory: with it, equal programs are equal data (log 3). -/
def Memory.wf (m : Memory) : Bool :=
  cellsWf 0 m.len.toNat m.cells

/-- A cell list with the byte at `addr` set to `b`, its canonical form kept. -/
def setCell : List Host.Cell → Nat → Byte → List Host.Cell
  | [], addr, b => if b = Config.unlistedByte then [] else [(addr, b)]
  | (k, c) :: cs, addr, b =>
    if addr < k then
      if b = Config.unlistedByte then (k, c) :: cs else (addr, b) :: (k, c) :: cs
    else if addr = k then
      if b = Config.unlistedByte then cs else (addr, b) :: cs
    else (k, c) :: setCell cs addr b

/-- The loader's write of one byte; at an address out of bounds it writes nothing (DESIGN CHOICE, log 8). No
instruction writes memory (20_memory R39), so no meaning calls it. -/
def Memory.write (m : Memory) (addr : Nat) (b : Byte) : Memory :=
  if m.inBounds addr then { m with cells := setCell m.cells addr b } else m

/-- The program made at least `n` bytes long, up to `MAX_PROGRAM_LEN`; the bytes added are 0x00. -/
def Memory.growTo (m : Memory) (n : Nat) : Memory :=
  if m.len.toNat < n then { m with len := BitVec.ofNat 16 (min n Config.maxProgramLen) } else m

/-- The cells of a byte sequence laid out from `addr` up. -/
def cellsFrom : Nat → List Byte → List Host.Cell
  | _, [] => []
  | addr, b :: bs =>
    if b = Config.unlistedByte then cellsFrom (addr + 1) bs else (addr, b) :: cellsFrom (addr + 1) bs

/-- The program memory of a byte sequence: "Byte `i` of the sequence is at address `i`" (20_memory R35). For a sequence
of at most `MAX_PROGRAM_LEN` bytes, as the load ensures (70_reset_and_hazards R100). -/
def Memory.ofBytes (program : List Byte) : Memory where
  len := BitVec.ofNat 16 program.length
  cells := cellsFrom 0 program

/-! ### Registers -/

/-- `A <- v`. -/
def State.setA (s : State) (v : Byte) : State := { s with a := v }

/-- `X <- v`. -/
def State.setX (s : State) (v : Byte) : State := { s with x := v }

/-- `P <- v`; called by the flag unit only (10_state R22). -/
def State.setP (s : State) (v : Byte) : State := { s with p := v }

/-- `PC <- PC + 1`, the sequencer's one advance (10_state R25, 40_engine R65). It is made after a byte is read at `PC`,
so `PC < L <= 0xFFFF` and it does not overflow (10_state R26). -/
def State.advancePc (s : State) : State := { s with pc := s.pc + 1#16 }

/-- `stop`: `RS <- Halted`, `FR` stays as it is (43_control R77). -/
def State.stop (s : State) : State := { s with rs := .halted }

/-! ### The ALU (40_engine R67) -/

/-- `PASS(v) = v`. -/
def aluPass (v : Byte) : Byte := v

/-- `INC(v) = (v + 1) mod 2^8`. -/
def aluInc (v : Byte) : Byte := v + 1#8

/-! ### Faults (60_exceptions) -/

/-- `raise Fault(kind, info)`: `RS <- Faulted`, `FR <- (kind, info)`, and nothing else (60_exceptions R78). -/
def raiseFault (f : Fault) (s : State) : State := { s with rs := .faulted, fr := some f }

/-- The code of a fault's kind (60_exceptions R79; labels only, the spec's decision D5). -/
def Fault.code : Fault → Nat
  | .outOfBounds _ _ => 1
  | .unknownOpcode _ _ => 2

end Sys2Proof.Machine
end

