-- ==== Sys2Proof/Machine/Flags.lean ====
section
/-! DEFINITION. The flag unit (40_engine R68 to R70) and the views of the status byte (10_state R18 to R22). -/

namespace Sys2Proof.Machine

/-- `v[i]` (00_scope R8). -/
def bitOf (v : Byte) (i : Nat) : Bool := v.getLsbD i

/-- `v` with bit `i` set to `b` and every other bit as it was. -/
def withBit (v : Byte) (i : Nat) (b : Bool) : Byte :=
  if b then v ||| (1#8 <<< i) else v &&& ~~~(1#8 <<< i)

/-- The Zero bit, `P[1]` (10_state R19). -/
def zeroFlag (p : Byte) : Bool := bitOf p 1

/-- The Negative bit, `P[7]` (10_state R20). -/
def negativeFlag (p : Byte) : Bool := bitOf p 7

/-- The reserved bits 6, 5, 4, 3, 2 and 0 of `P` (10_state R21; 40_engine R69, `0x7D`). -/
def reservedMask : Byte := 0x7D#8

/-- `SetZN(v)`: `P[1] <- (v = 0x00)`, then `P[7] <- v[7]`; the one flag update every flag-affecting instruction calls
(40_engine R68, R70). -/
def setZN (v : Byte) (s : State) : State :=
  s.setP (withBit (withBit s.p 1 (decide (v = 0x00#8))) 7 (bitOf v 7))

end Sys2Proof.Machine
end

