-- ==== Sys2Proof/Machine/Operands.lean ====
section
/-! DEFINITION. The program-counter sequencer's one operation (40_engine R63, R65) and the one operand form (30_encoding
R51). -/

namespace Sys2Proof.Machine

/-- What a fetch gives: a value, with the state after the bytes it consumed, or the state the step ends in with no
instruction run. -/
inductive Fetched (α : Type) where
  | got (v : α) (s : State)
  | ended (s : State)
deriving DecidableEq, Repr

/-- "Read the byte at `PC` if in bounds, then add 1" (40_engine R65); out of bounds it raises OutOfBounds before
anything is read or advanced (40_engine R62, R65; 60_exceptions R80). -/
def fetchByte (phase : FetchPhase) (s : State) : Fetched Byte :=
  match s.mem.read? s.pc.toNat with
  | none => .ended (raiseFault (.outOfBounds s.pc phase) s)
  | some v => .got v s.advancePc

/-- The opcode fetch, the first two actions of a step (40_engine R62, R63). -/
def fetchOpcode (s : State) : Fetched Byte := fetchByte .opcode s

/-- `FetchOperand()` (40_engine R65). -/
def fetchOperand (s : State) : Fetched Byte := fetchByte .operand s

end Sys2Proof.Machine
end

