-- ==== Sys2Proof/Machine/Control.lean ====
section
/-! DEFINITION. The control instruction (43_control). -/

namespace Sys2Proof.Machine

/-- HALT (43_control R77): `RS <- Halted`; no register, no flag and no byte of memory is written. -/
def execHalt (s : State) : Host.Outcome State Fault Refusal :=
  .next s.stop

end Sys2Proof.Machine
end

