-- ==== Sys2Proof/Machine/Increment.lean ====
section
/-! DEFINITION. The increment instruction (42_increment). -/

namespace Sys2Proof.Machine

/-- INX (42_increment R76): `X <- (X + 1) mod 2^8`, then `SetZN(X)`. -/
def execInx (s : State) : Host.Outcome State Fault Refusal :=
  let s1 := s.setX (aluInc s.x)
  .next (setZN s1.x s1)

end Sys2Proof.Machine
end

