-- ==== Sys2Proof/Machine/LoadTransfer.lean ====
section
/-! DEFINITION. The load and transfer instructions (41_load_transfer). A meaning starts with `PC` past the instruction's
bytes (log 5). -/

namespace Sys2Proof.Machine

/-- LDA (41_load_transfer R74), its operand fetched: `A <- imm`, then `SetZN(A)`. -/
def execLda (imm : Byte) (s : State) : Host.Outcome State Fault Refusal :=
  let s1 := s.setA (aluPass imm)
  .next (setZN s1.a s1)

/-- TAX (41_load_transfer R75): `X <- A`, then `SetZN(X)`, the flags taken from `X`. -/
def execTax (s : State) : Host.Outcome State Fault Refusal :=
  let s1 := s.setX (aluPass s.a)
  .next (setZN s1.x s1)

end Sys2Proof.Machine
end

