-- ==== Sys2Proof/Syntax.lean ====
section
/-! DEFINITION. The instructions of spec/opcode_table.json (30_encoding R52, R58), one constructor a row. -/

namespace Sys2Proof

/-- The four instructions in scope (00_scope R3). -/
inductive Instr where
  /-- LDA, Load-Accumulator-Immediate; `imm` is the 8-bit unsigned operand byte (30_encoding R51, 41_load_transfer R74). -/
  | lda (imm : Byte)
  /-- TAX, Transfer-Accumulator-to-Index (41_load_transfer R75). -/
  | tax
  /-- INX, Increment-Index (42_increment R76). -/
  | inx
  /-- HALT (43_control R77). -/
  | halt
deriving DecidableEq, Repr

end Sys2Proof
end

