-- ==== Sys2Proof/WellFormed.lean ====
section
/-! DEFINITION. What is well-formed: an instruction, a source line of 30_encoding R58, a program (70_reset_and_hazards R100). -/

namespace Sys2Proof

/-- An instruction is well-formed when its operand fits its field. `lda`'s operand has the field's own type
(30_encoding R51: 8 bits, used as is), so every term of `Instr` is well-formed; the value check is `SourceLine.wf`. -/
def Instr.wf : Instr → Bool
  | .lda _ => true
  | .tax => true
  | .inx => true
  | .halt => true

/-- A line of the spec's source notation (30_encoding R58), its numbers as written. Only the line's content is
modelled, not its characters (log 9). -/
inductive SourceLine where
  /-- `LDA #imm` -/
  | lda (imm : Nat)
  /-- `TAX` -/
  | tax
  /-- `INX` -/
  | inx
  /-- `HALT` -/
  | halt
  /-- `.byte v`: the byte `v` unchanged -/
  | byte (v : Nat)
deriving DecidableEq, Repr

/-- "An `imm` outside 0 to 255 spells no instruction" (30_encoding R58); `.byte` places a byte, so its value is one. -/
def SourceLine.wf : SourceLine → Bool
  | .lda imm => decide (imm < 256)
  | .byte v => decide (v < 256)
  | .tax => true
  | .inx => true
  | .halt => true

/-- A program the load accepts has at most `MAX_PROGRAM_LEN` bytes (70_reset_and_hazards R100). -/
def programFits (program : List Byte) : Bool :=
  decide (program.length ≤ Config.maxProgramLen)

end Sys2Proof
end

