-- ==== Sys2Proof/Decode.lean ====
section
/-! DEFINITION. Decoding (30_encoding), total on any bytes and rejecting by name, and after it the encoder. -/

namespace Sys2Proof

/-- The closed enumeration of opcodes that 40_engine R64 asks for. -/
inductive Opcode where
  | lda
  | tax
  | inx
  | halt
deriving DecidableEq, Repr

/-- The two formats (30_encoding R49). -/
inductive Format where
  /-- IMP, implied: the opcode byte alone. -/
  | imp
  /-- IMM, immediate: the opcode byte and one operand byte. -/
  | imm
deriving DecidableEq, Repr

/-- Dispatch on the whole opcode byte, all 8 bits compared (30_encoding R50, R52; 40_engine R64). `none`: one of the
252 bytes with no arm (30_encoding R54). -/
def Opcode.ofByte? (b : Byte) : Option Opcode :=
  if b = 0xA9#8 then some .lda
  else if b = 0xAA#8 then some .tax
  else if b = 0xE8#8 then some .inx
  else if b = 0x00#8 then some .halt
  else none

/-- The format column of 30_encoding R52. -/
def Opcode.format : Opcode → Format
  | .lda => .imm
  | .tax => .imp
  | .inx => .imp
  | .halt => .imp

/-- The length of a format in bytes (30_encoding R49). -/
def Format.length : Format → Nat
  | .imp => 1
  | .imm => 2

/-- The opcode of an instruction. -/
def Instr.opcode : Instr → Opcode
  | .lda _ => .lda
  | .tax => .tax
  | .inx => .inx
  | .halt => .halt

/-- The length of an instruction in bytes, from its opcode alone (30_encoding R56). -/
def Instr.length (i : Instr) : Nat :=
  i.opcode.format.length

/-- Why no instruction is read from a byte stream. -/
inductive DecodeError where
  /-- no byte at all (20_memory R36: an empty stream) -/
  | emptyStream
  /-- the first byte is one of the 252 illegal opcodes (30_encoding R54) -/
  | unknownOpcode (b : Byte)
  /-- an LDA opcode with no byte after it (20_memory R36: "a Load missing its operand byte") -/
  | missingOperand
deriving DecidableEq, Repr

/-- The instruction at the head of a byte stream, and the bytes after it (30_encoding R49, R53, R56). -/
def decode : List Byte → Except DecodeError (Instr × List Byte)
  | [] => .error .emptyStream
  | b :: rest =>
    match Opcode.ofByte? b with
    | none => .error (.unknownOpcode b)
    | some .lda =>
      match rest with
      | [] => .error .missingOperand
      | v :: rest' => .ok (.lda v, rest')
    | some .tax => .ok (.tax, rest)
    | some .inx => .ok (.inx, rest)
    | some .halt => .ok (.halt, rest)

/-- The bytes of an instruction whose bits are `w` as spec/opcode_table.json numbers them: bit 0 is the least
significant bit of the opcode byte, bits 15..8 are the operand byte, and every bit from `nbits` up is 0. Two bytes
are the longest instruction (00_scope R7, `INSN_LEN`). -/
def tableWordBytes (nbits w : Nat) : Byte × Byte :=
  let v := w % 2 ^ nbits
  (BitVec.ofNat 8 v, BitVec.ofNat 8 (v / 256))

/-- The instruction the decoder reads from a table word. -/
def decodeTableWord (nbits w : Nat) : Option Instr :=
  match decode [(tableWordBytes nbits w).1, (tableWordBytes nbits w).2] with
  | .ok (i, _) => some i
  | .error _ => none

/-- The opcode byte column of 30_encoding R52. -/
def Opcode.byte : Opcode → Byte
  | .lda => 0xA9#8
  | .tax => 0xAA#8
  | .inx => 0xE8#8
  | .halt => 0x00#8

/-- The bytes of an instruction, opcode first (30_encoding R49, R52, R53). -/
def encode (i : Instr) : List Byte :=
  match i with
  | .lda imm => [Opcode.lda.byte, imm]
  | .tax => [Opcode.tax.byte]
  | .inx => [Opcode.inx.byte]
  | .halt => [Opcode.halt.byte]

/-- The bytes a source line stands for (30_encoding R58, R59): those of its instruction, or the byte itself.
`none`: the line spells nothing. -/
def SourceLine.bytes? (l : SourceLine) : Option (List Byte) :=
  if l.wf then
    match l with
    | .lda imm => some (encode (.lda (BitVec.ofNat 8 imm)))
    | .tax => some (encode .tax)
    | .inx => some (encode .inx)
    | .halt => some (encode .halt)
    | .byte v => some [BitVec.ofNat 8 v]
  else none

end Sys2Proof
end

