-- ==== Sys2Proof/Machine/Fetch.lean ====
section
/-! DEFINITION. From a state to the instruction its step runs (40_engine R61 to R65), and where a table word is placed so
that the next step runs it. -/

namespace Sys2Proof.Machine

/-- The first three actions of a step, in their order (40_engine R62 to R65, 60_exceptions R84): the opcode fetch with
its bound check, the dispatch, and, for LDA, the operand fetch with its bound check. `got i s'`: the step runs `i` from
`s'`, whose `PC` is past the instruction's bytes (41_load_transfer, the template's head; log 5). -/
def fetchRunning (s : State) : Fetched Instr :=
  match fetchOpcode s with
  | .ended s' => .ended s'
  | .got op s1 =>
    match Opcode.ofByte? op with
    | none => .ended (raiseFault (.unknownOpcode op s.pc) s1)
    | some .lda =>
      match fetchOperand s1 with
      | .ended s' => .ended s'
      | .got v s2 => .got (.lda v) s2
    | some .tax => .got .tax s1
    | some .inx => .got .inx s1
    | some .halt => .got .halt s1

/-- "A step is taken only when `RS = Running`" (40_engine R61). Halted and Faulted absorb: no byte is fetched and no
state changes (40_engine R72). DEDUCED (log 2): a step asked for there ends in the same state. -/
def fetchInstr (s : State) : Fetched Instr :=
  match s.rs with
  | .running => fetchRunning s
  | .halted => .ended s
  | .faulted => .ended s

/-- `s` with a table word's two bytes placed where the next step fetches, at `PC` and `PC + 1`: the program is made long
enough to hold them, and the run is under way, as a load and a start leave it (log 4). Both bytes fit when
`PC <= 0xFFFD`, and the first alone when `PC = 0xFFFE`; at `PC = 0xFFFF` no program has a byte (00_scope R7). -/
def placeTableWord (s : State) (nbits w : Nat) : State :=
  let bytes := tableWordBytes nbits w
  { s with
    rs := .running
    fr := none
    mem := ((s.mem.growTo (s.pc.toNat + 2)).write s.pc.toNat bytes.1).write (s.pc.toNat + 1) bytes.2 }

end Sys2Proof.Machine
end

