-- ==== Sys2Proof/Machine/Step.lean ====
section
/-! DEFINITION. One step (40_engine R61) and the placing of a table word for it. -/

namespace Sys2Proof.Machine

/-- One step: one whole instruction, or the fault that ends it (40_engine R61 to R66), or, once the run is over,
nothing (40_engine R72; log 2). -/
def step (s : State) : Host.Outcome State Fault Refusal :=
  match fetchInstr s with
  | .got i s' => exec i s'
  | .ended s' => .next s'

/-- `s` with the table word `w` of `nbits` bits placed where `step` fetches its next instruction (log 4). -/
def State.withFetchWord (s : State) (nbits w : Nat) : State :=
  placeTableWord s nbits w

end Sys2Proof.Machine
end

