-- ==== Sys2Proof/Machine/HostPort.lean ====
section
/-! DEFINITION. The host's interface to the block: load, start, done and read state (70_reset_and_hazards R95 to R100,
R103). A host move is no step of the engine (log 6). -/

namespace Sys2Proof.Machine

/-- The start state of a run on the program in `m` (70_reset_and_hazards R96). -/
def startState (m : Memory) : State := { State.reset with mem := m }

/-- done: `RS` is Halted or Faulted (70_reset_and_hazards R97). -/
def runDone (s : State) : Bool := decide (s.rs ≠ .running)

/-- load: the program's bytes and its length, not during a run (R97, R103) and not more than `MAX_PROGRAM_LEN` of them
(R100). The registers are as they were until the start (60_exceptions R94). -/
def hostLoad (program : List Byte) (s : State) : Host.Outcome State Fault Refusal :=
  if runDone s then
    if programFits program then .next { s with mem := Memory.ofBytes program }
    else .refused (.programTooLong program.length)
  else .refused .hostMoveDuringRun

/-- start: the reset, whatever the previous run left (70_reset_and_hazards R95, R98), not during a run (R103). -/
def hostStart (s : State) : Host.Outcome State Fault Refusal :=
  if runDone s then .next (startState s.mem) else .refused .hostMoveDuringRun

/-- load and start on a fresh block, the first run's beginning (70_reset_and_hazards R95, R96, R100; log 6). -/
def launch (program : List Byte) : Host.Outcome State Fault Refusal :=
  if programFits program then .next (startState (Memory.ofBytes program))
  else .refused (.programTooLong program.length)

/-- What the host reads after the run: the tuple of 70_reset_and_hazards R105, with `P`'s two named bits (R97,
10_state R22). -/
structure Observation where
  a : Byte
  x : Byte
  p : Byte
  zero : Bool
  negative : Bool
  pc : Addr
  rs : RunStatus
  fr : Option Fault
deriving DecidableEq, Repr

/-- read state: only after done (70_reset_and_hazards R97, 60_exceptions R93). -/
def readState (s : State) : Option Observation :=
  if runDone s then
    some { a := s.a, x := s.x, p := s.p, zero := zeroFlag s.p, negative := negativeFlag s.p,
           pc := s.pc, rs := s.rs, fr := s.fr }
  else none

end Sys2Proof.Machine
end

