-- ==== Sys2Proof/Safety.lean ====
section
/-! DEFINITION. The terms claims are stated in: runs, what a step runs, the status byte's rule, and the invariants. -/

namespace Sys2Proof.Machine

/-- The next state of an outcome, where it is one. -/
def nextOf : Host.Outcome State Fault Refusal → Option State
  | .next s => some s
  | .fault _ => none
  | .refused _ => none

/-- `k` steps (40_engine R61: a run is the sequence of steps). -/
def runFor : Nat → State → Host.Outcome State Fault Refusal
  | 0, s => .next s
  | k + 1, s =>
    match step s with
    | .next t => runFor k t
    | .fault f => .fault f
    | .refused r => .refused r

/-- The instruction the step from `s` runs; `none` where it ends in a fault of its fetch or dispatch, or is not taken. -/
def stepInstr (s : State) : Option Instr :=
  match fetchInstr s with
  | .got i _ => some i
  | .ended _ => none

/-- The program's bytes at `PC` and `PC + 1`, as far as they are in bounds: all that a step can read (30_encoding R49). -/
def streamAt (s : State) : List Byte :=
  match s.mem.read? s.pc.toNat with
  | none => []
  | some b =>
    match s.mem.read? (s.pc.toNat + 1) with
    | none => [b]
    | some v => [b, v]

/-- `s` with `PC` past `n` bytes. -/
def State.skip (s : State) (n : Nat) : State := { s with pc := s.pc + BitVec.ofNat 16 n }

/-- The meanings of a list of instructions applied in order, `PC` moved past each one's bytes before its meaning. -/
def execAll : List Instr → State → Host.Outcome State Fault Refusal
  | [], s => .next s
  | i :: is, s =>
    match exec i (s.skip i.length) with
    | .next t => execAll is t
    | .fault f => .fault f
    | .refused r => .refused r

/-- The program holds the byte list `bs` from `addr` up. -/
def holdsAt (m : Memory) (addr : Nat) (bs : List Byte) : Prop :=
  ∀ k b, bs[k]? = some b → m.read? (addr + k) = some b

/-- The byte form of the flag update: what `SetZN(v)` makes of the status byte `old` (40_engine R69). -/
def znByte (old v : Byte) : Byte :=
  (old &&& 0x7D#8) ||| (v &&& 0x80#8) ||| (if v = 0x00#8 then 0x02#8 else 0x00#8)

/-- An opcode byte with a dispatch arm (30_encoding R52). -/
abbrev legalOpcode (b : Byte) : Prop := b = 0xA9#8 ∨ b = 0xAA#8 ∨ b = 0xE8#8 ∨ b = 0x00#8

/-- The invariant of every run: the program is in canonical form, `PC <= L` (10_state R26), the reserved bits of `P` are 0
(10_state R21), and `FR` holds a record exactly while `RS` is Faulted (10_state R30). -/
abbrev RunInv (s : State) : Prop :=
  s.mem.wf = true ∧ s.pc.toNat ≤ s.mem.len.toNat ∧ s.p &&& reservedMask = 0x00#8 ∧ (s.fr.isSome = true ↔ s.rs = .faulted)

/-- What a fault record says of the state it was left in: an OutOfBounds address is `PC` and `L`, after an LDA opcode in the
operand phase (60_exceptions R80); an UnknownOpcode record names an illegal byte and its address, one before `PC`
(60_exceptions R81, R82). -/
def recordAgrees (s : State) : Fault → Prop
  | .outOfBounds addr .opcode => addr = s.pc ∧ addr = s.mem.len
  | .outOfBounds addr .operand =>
    addr = s.pc ∧ addr = s.mem.len ∧ 0 < addr.toNat ∧ s.mem.read? (addr.toNat - 1) = some 0xA9#8
  | .unknownOpcode op offset =>
    offset.toNat + 1 = s.pc.toNat ∧ s.mem.read? offset.toNat = some op ∧ ¬ legalOpcode op

/-- The end of a run is backed by the program: a Halted state stands one past a HALT byte (43_control R77), a Faulted one
holds a record that agrees with the program. -/
def endAgrees (s : State) : Prop :=
  (s.rs = .halted → 0 < s.pc.toNat ∧ s.mem.read? (s.pc.toNat - 1) = some 0x00#8) ∧
  (∀ f, s.fr = some f → recordAgrees s f)

/-- The status byte is the start state's, or describes `A` or `X` (10_state R23). -/
abbrev flagsDescribe (s : State) : Prop :=
  s.p = 0x00#8 ∨ s.p = znByte 0x00#8 s.a ∨ s.p = znByte 0x00#8 s.x

end Sys2Proof.Machine
end

