-- ==== Sys2Proof/Certificates/Slice0/Obligations.lean ====
section
/-! DEFINITION. The statements for the provers, from the numbered rules of spec/. -/

open Sys2Proof Sys2Proof.Machine

/-! ### Encoding (30_encoding) -/

/-- R49, R52, R53: decoding reads back every encoded instruction and leaves what follows it, and reads nothing but an
instruction's own encoding. -/
def Obligations.DecodeInvertsEncode : Prop :=
  (∀ (i : Instr) (rest : List Byte), i.wf = true → decode (encode i ++ rest) = .ok (i, rest)) ∧
  (∀ (bs rest : List Byte) (i : Instr), decode bs = .ok (i, rest) → bs = encode i ++ rest)

/-- R53, R57: a byte sequence is the encoding of at most one instruction sequence. -/
def Obligations.EncodedStreamsAreUnique : Prop :=
  ∀ is js : List Instr, is.flatMap encode = js.flatMap encode → is = js

/-- R36, R54, R56: the decoder rejects exactly the empty stream, a stream whose first byte is an illegal opcode (252 of
the 256 bytes), and an LDA opcode alone. -/
def Obligations.DecodeRejectsExactly : Prop :=
  (∀ bs, decode bs = .error .emptyStream ↔ bs = []) ∧
  (∀ bs b, decode bs = .error (.unknownOpcode b) ↔ bs.head? = some b ∧ ¬ legalOpcode b) ∧
  (∀ bs, decode bs = .error .missingOperand ↔ bs = [0xA9#8]) ∧
  ((List.range 256).filter (fun n => decide (¬ legalOpcode (BitVec.ofNat 8 n)))).length = 252

/-- R56: an instruction's length comes from its opcode byte alone. -/
def Obligations.LengthComesFromOpcodeByte : Prop :=
  ∀ (bs rest : List Byte) (i : Instr), decode bs = .ok (i, rest) →
    bs.length = i.length + rest.length ∧ i.length = (if bs.head? = some 0xA9#8 then 2 else 1)

/-- R52: words written out from the encoding table decode to the instructions they stand for (a sanity statement). -/
def Obligations.TableBytesDecode : Prop :=
  decode [0b10101001#8, 0b11000000#8, 0b00000000#8] = .ok (.lda 0xC0#8, [0b00000000#8]) ∧
  decode [0b10101010#8] = .ok (.tax, []) ∧
  decode [0b11101000#8, 0b10101001#8] = .ok (.inx, [0b10101001#8]) ∧
  decode [0b00000000#8, 0b11111111#8] = .ok (.halt, [0b11111111#8])

/-- R58, R59, under the spec's decision D14: a source line stands for exactly the bytes of its instruction, `.byte` for its
byte, and an LDA line with a number outside 0 to 255 for nothing. That a `.byte` line with such a number stands for nothing
too is the model's choice (log 9). -/
def Obligations.SourceLinesStandForTheirBytes : Prop :=
  (∀ imm, imm < 256 → (SourceLine.lda imm).bytes? = some [0xA9#8, BitVec.ofNat 8 imm]) ∧
  (∀ v, v < 256 → (SourceLine.byte v).bytes? = some [BitVec.ofNat 8 v]) ∧
  SourceLine.tax.bytes? = some [0xAA#8] ∧
  SourceLine.inx.bytes? = some [0xE8#8] ∧
  SourceLine.halt.bytes? = some [0x00#8] ∧
  (∀ n, 256 ≤ n → (SourceLine.lda n).bytes? = none ∧ (SourceLine.byte n).bytes? = none)

/-! ### Reset and the host's interface (70_reset_and_hazards) -/

/-- R32, R96 (`RS` and `FR` by the spec's decision D1; the empty program is log 4): the state after reset. Zero is clear
although `A` and `X` are 0 (R23). -/
def Obligations.ResetIsTheStartState : Prop :=
  State.reset.a = 0x00#8 ∧ State.reset.x = 0x00#8 ∧ State.reset.p = 0x00#8 ∧ State.reset.pc = 0x0000#16 ∧
  State.reset.rs = .running ∧ State.reset.fr = none ∧
  zeroFlag State.reset.p = false ∧ negativeFlag State.reset.p = false ∧
  (∀ addr, State.reset.mem.read? addr = none)

/-- R34, R35, R37, R96: a run launched on a program starts in the start state, and its memory holds byte `i` of the
program at address `i` and nothing beyond. The launch is the model's form of load and start (log 6). -/
def Obligations.LaunchHoldsTheProgram : Prop :=
  ∀ program : List Byte, program.length ≤ 0xFFFF →
    ∃ t, launch program = .next t ∧
      t.a = 0x00#8 ∧ t.x = 0x00#8 ∧ t.p = 0x00#8 ∧ t.pc = 0x0000#16 ∧ t.rs = .running ∧ t.fr = none ∧
      t.mem.len.toNat = program.length ∧ (∀ addr, t.mem.read? addr = program[addr]?)

/-- R100 (the spec's decision D3): a program of more than 0xFFFF bytes is refused at load and no run starts. -/
def Obligations.TooLongProgramIsRefused : Prop :=
  ∀ (program : List Byte), 0xFFFF < program.length →
    launch program = .refused (.programTooLong program.length) ∧
    (∀ s : State, s.rs ≠ .running → hostLoad program s = .refused (.programTooLong program.length))

/-- R94, R98 (the host moves' form is log 6): a start after a finished run gives the start state whatever that run left; a
load before it leaves the finished run's `A`, `X`, `P`, `PC`, `RS` and `FR` as they are, its memory reads as the program
loaded, and the start after it gives the run a launch on a fresh block gives. -/
def Obligations.StartForgetsTheLastRun : Prop :=
  ∀ s : State, s.rs ≠ .running →
    (∃ t, hostStart s = .next t ∧ t.a = 0x00#8 ∧ t.x = 0x00#8 ∧ t.p = 0x00#8 ∧ t.pc = 0x0000#16 ∧
      t.rs = .running ∧ t.fr = none ∧ t.mem = s.mem) ∧
    (∀ program : List Byte, program.length ≤ 0xFFFF →
      ∃ u, hostLoad program s = .next u ∧ u = { s with mem := u.mem } ∧ u.mem.len.toNat = program.length ∧
        (∀ addr, u.mem.read? addr = program[addr]?) ∧ hostStart u = launch program)

/-- R97, R103 (the spec's decisions D2, D16, D18; the refusal's form is log 6): during a run the host can neither load,
nor start, nor read. -/
def Obligations.HostHasNoMoveDuringARun : Prop :=
  ∀ s : State, s.rs = .running →
    runDone s = false ∧ (∀ program, hostLoad program s = .refused .hostMoveDuringRun) ∧
    hostStart s = .refused .hostMoveDuringRun ∧ readState s = none

/-- R85, R97 (the spec's decisions D2, D7): after a run the host reads the registers, `P` as a byte and as its Zero and
Negative bits, the run status and the fault record. -/
def Obligations.HostReadsTheResultAfterARun : Prop :=
  ∀ s : State, s.rs ≠ .running →
    runDone s = true ∧
    ∃ o, readState s = some o ∧ o.a = s.a ∧ o.x = s.x ∧ o.p = s.p ∧ o.pc = s.pc ∧ o.rs = s.rs ∧ o.fr = s.fr ∧
      o.zero = s.p.getLsbD 1 ∧ o.negative = s.p.getLsbD 7

/-! ### The flag unit and the ALU (40_engine) -/

/-- R68: `SetZN(v)` sets Zero exactly when `v` is 0 and copies bit 7 of `v` to Negative; every other register, the run
status, the record and memory are as they were; LDA calls it with the new `A`, TAX and INX with the new `X`. -/
def Obligations.SetZNSetsZeroAndNegative : Prop :=
  ∀ (v : Byte) (s : State),
    ((setZN v s).p.getLsbD 1 = true ↔ v = 0x00#8) ∧ ((setZN v s).p.getLsbD 7 = v.getLsbD 7) ∧
    setZN v s = { s with p := (setZN v s).p } ∧
    exec (.lda v) s = .next (setZN v { s with a := v }) ∧
    exec .tax s = .next (setZN s.a { s with x := s.a }) ∧
    exec .inx s = .next (setZN (s.x + 1#8) { s with x := s.x + 1#8 })

/-- R69: `SetZN` touches bits 1 and 7 only, is the byte operation R69 gives, and on a status byte with its reserved bits 0
gives exactly the two flags. -/
def Obligations.SetZNPreservesReservedBits : Prop :=
  ∀ (v : Byte) (s : State),
    (∀ i, i ≠ 1 → i ≠ 7 → (setZN v s).p.getLsbD i = s.p.getLsbD i) ∧
    (setZN v s).p = (s.p &&& 0x7D#8) ||| (v &&& 0x80#8) ||| (if v = 0x00#8 then 0x02#8 else 0x00#8) ∧
    (s.p &&& 0x7D#8 = 0x00#8 → (setZN v s).p = (v &&& 0x80#8) ||| (if v = 0x00#8 then 0x02#8 else 0x00#8))

/-- R67: PASS is the identity and INC adds 1 modulo 256, with 0xFF going to 0x00. -/
def Obligations.AluPassesAndIncrementsModulo256 : Prop :=
  (∀ v : Byte, aluPass v = v) ∧ (∀ v : Byte, (aluInc v).toNat = (v.toNat + 1) % 256) ∧ aluInc 0xFF#8 = 0x00#8

/-! ### Fetching and faults (40_engine, 60_exceptions) -/

/-- R65: the operand fetch raises OutOfBounds with `PC` left at the operand's address, or reads the byte at `PC` and adds 1
to `PC`, which does not overflow; the opcode fetch is the same operation in its own phase. -/
def Obligations.FetchReadsThenAdvances : Prop :=
  ∀ s : State,
    (s.mem.len.toNat ≤ s.pc.toNat →
      fetchOperand s = .ended { s with rs := .faulted, fr := some (.outOfBounds s.pc .operand) } ∧
      fetchOpcode s = .ended { s with rs := .faulted, fr := some (.outOfBounds s.pc .opcode) }) ∧
    (s.pc.toNat < s.mem.len.toNat →
      ∃ v, s.mem.read? s.pc.toNat = some v ∧
        fetchOperand s = .got v { s with pc := s.pc + 1#16 } ∧
        fetchOpcode s = .got v { s with pc := s.pc + 1#16 } ∧
        (s.pc + 1#16).toNat = s.pc.toNat + 1)

/-- R62: a step at a `PC` out of bounds raises OutOfBounds in the opcode phase and changes nothing else. -/
def Obligations.StepPastTheEndFaults : Prop :=
  ∀ s : State, s.rs = .running → s.mem.len.toNat ≤ s.pc.toNat →
    step s = .next { s with rs := .faulted, fr := some (.outOfBounds s.pc .opcode) }

/-- R81: dispatch on any byte but the four raises UnknownOpcode with the byte and its address, `PC` one past it; at the
last address of the program too (R84). -/
def Obligations.StepOnUnknownOpcodeFaults : Prop :=
  ∀ (s : State) (b : Byte), s.rs = .running → s.mem.read? s.pc.toNat = some b →
    b ≠ 0xA9#8 → b ≠ 0xAA#8 → b ≠ 0xE8#8 → b ≠ 0x00#8 →
    ∃ t, step s = .next t ∧ t.fr = some (.unknownOpcode b (t.pc - 1#16)) ∧ t.pc = s.pc + 1#16 ∧
      t = { s with pc := t.pc, rs := .faulted, fr := t.fr }

/-- R61, R63, R64: where the bytes at `PC` decode to a well-formed instruction, a step of a running machine is its meaning from
the state with `PC` past its bytes. -/
def Obligations.StepRunsTheDecodedInstruction : Prop :=
  ∀ (s : State) (i : Instr) (rest : List Byte),
    s.rs = .running → decode (streamAt s) = .ok (i, rest) → i.wf = true →
    step s = exec i { s with pc := s.pc + BitVec.ofNat 16 i.length } ∧ stepInstr s = some i ∧
    (s.pc + BitVec.ofNat 16 i.length).toNat = s.pc.toNat + i.length

/-- R82, R84 (the spec's decisions D5, D6): where the decoder rejects the bytes at `PC`, a step of a running machine raises
the fault that names the reason, and leaves `PC` past the bytes it had read. -/
def Obligations.StepFaultsWhereTheDecoderRejects : Prop :=
  ∀ s : State, s.rs = .running →
    (decode (streamAt s) = .error .emptyStream →
      step s = .next { s with rs := .faulted, fr := some (.outOfBounds s.pc .opcode) }) ∧
    (∀ b, decode (streamAt s) = .error (.unknownOpcode b) →
      step s = .next { s with pc := s.pc + 1#16, rs := .faulted, fr := some (.unknownOpcode b s.pc) }) ∧
    (decode (streamAt s) = .error .missingOperand →
      step s = .next { s with pc := s.pc + 1#16, rs := .faulted, fr := some (.outOfBounds (s.pc + 1#16) .operand) })

/-- R82, R83 (the spec's decision D6): a step that faults leaves `A`, `X`, `P` and the program as they were, and its record
and `PC` are those of one of the three cases. -/
def Obligations.FaultLeavesRegistersUnchanged : Prop :=
  ∀ s t : State, s.rs = .running → step s = .next t → t.rs = .faulted →
    t.a = s.a ∧ t.x = s.x ∧ t.p = s.p ∧ (∀ addr, t.mem.read? addr = s.mem.read? addr) ∧ stepInstr s = none ∧
    ((t.fr = some (.outOfBounds s.pc .opcode) ∧ t.pc = s.pc) ∨
     (t.fr = some (.outOfBounds t.pc .operand) ∧ t.pc.toNat = s.pc.toNat + 1) ∨
     (∃ op, t.fr = some (.unknownOpcode op s.pc) ∧ t.pc.toNat = s.pc.toNat + 1))

/-- R79 (the spec's decision D5): the two kinds have the codes 1 and 2. -/
def Obligations.FaultKindsHaveTheirCodes : Prop :=
  (∀ addr phase, (Fault.outOfBounds addr phase).code = 1) ∧ (∀ op offset, (Fault.unknownOpcode op offset).code = 2)

/-- R72 (the spec's decision D8; that a step answers the same state there is log 2): a finished run stays as it is. -/
def Obligations.FinishedRunsStayAsTheyAre : Prop :=
  ∀ (k : Nat) (s : State), s.rs ≠ .running → runFor k s = .next s

/-- Logs 1, 2 and 5, with R61, R72, R78: from every state a step answers a next state, and which: the same state once the run
is over (log 2); for a running state whose step runs no instruction, one with `RS` Faulted, a record in `FR` and no other
change but in `PC` (log 1); else what `exec` answers for the step's instruction from past its bytes (log 5). -/
def Obligations.EveryStepAnswersANextState : Prop :=
  ∀ s : State, ∃ t, step s = .next t ∧
    (s.rs ≠ .running → stepInstr s = none ∧ t = s) ∧
    (s.rs = .running → stepInstr s = none →
      ∃ f, t = { s with pc := t.pc, rs := .faulted, fr := some f }) ∧
    (∀ i, stepInstr s = some i →
      s.rs = .running ∧ exec i { s with pc := s.pc + BitVec.ofNat 16 i.length } = .next t)

/-- Log 4: a table word placed by `withFetchWord` is what the next step runs, and the placing changes no register and no
other byte of the program. -/
def Obligations.PlacedTableWordRunsNext : Prop :=
  ∀ (s : State) (nbits w : Nat) (i : Instr),
    s.mem.wf = true → s.pc.toNat ≤ 0xFFFD → decodeTableWord nbits w = some i →
    step (s.withFetchWord nbits w) = exec i ((s.withFetchWord nbits w).skip i.length) ∧
    (s.withFetchWord nbits w).mem.wf = true ∧
    (s.withFetchWord nbits w).a = s.a ∧ (s.withFetchWord nbits w).x = s.x ∧ (s.withFetchWord nbits w).p = s.p ∧
    (s.withFetchWord nbits w).pc = s.pc ∧
    (∀ addr, addr < s.mem.len.toNat → addr ≠ s.pc.toNat → addr ≠ s.pc.toNat + 1 →
      (s.withFetchWord nbits w).mem.read? addr = s.mem.read? addr)

/-! ### The instructions (41_load_transfer, 42_increment, 43_control)

The meanings start with `PC` past the instruction's bytes (log 5); the steps start at the opcode. Each equation gives the
whole next state, so it says the frame too: every field it does not name is as it was. -/

/-- R74: LDA's meaning, from every state: `A` is the operand, `P` has its flags, nothing else changes. -/
def Obligations.LdaLoadsTheOperand : Prop :=
  ∀ (imm : Byte) (s : State), ∃ t, exec (.lda imm) s = .next t ∧
    t = { s with a := imm, p := znByte s.p imm } ∧
    (t.p.getLsbD 1 = true ↔ imm = 0x00#8) ∧ t.p.getLsbD 7 = imm.getLsbD 7 ∧
    (∀ addr, t.mem.read? addr = s.mem.read? addr)

/-- R75: TAX's meaning, from every state: `X` is `A`, `P` has the flags of `X`, nothing else changes. -/
def Obligations.TaxCopiesTheAccumulator : Prop :=
  ∀ s : State, ∃ t, exec .tax s = .next t ∧
    t = { s with x := s.a, p := znByte s.p s.a } ∧
    (t.p.getLsbD 1 = true ↔ t.x = 0x00#8) ∧ t.p.getLsbD 7 = t.x.getLsbD 7 ∧
    (∀ addr, t.mem.read? addr = s.mem.read? addr)

/-- R76: INX's meaning, from every state: `X` is `X + 1` modulo 256, `P` has the flags of the new `X`, nothing else
changes. -/
def Obligations.InxIncrementsTheIndex : Prop :=
  ∀ s : State, ∃ t, exec .inx s = .next t ∧
    t = { s with x := t.x, p := znByte s.p t.x } ∧ t.x.toNat = (s.x.toNat + 1) % 256 ∧
    (t.p.getLsbD 1 = true ↔ s.x = 0xFF#8) ∧
    (t.p.getLsbD 7 = true ↔ 0x7F ≤ s.x.toNat ∧ s.x.toNat ≤ 0xFE) ∧
    (∀ addr, t.mem.read? addr = s.mem.read? addr)

/-- R77: HALT's meaning, from every state: `RS` is Halted, nothing else changes. -/
def Obligations.HaltStops : Prop :=
  ∀ s : State, ∃ t, exec .halt s = .next t ∧ t = { s with rs := .halted } ∧
    (∀ addr, t.mem.read? addr = s.mem.read? addr)

/-- R74: a step at an LDA opcode loads the byte after it, with `PC` advanced by 2, or, where that byte is past the end, faults
in the operand phase with `A`, `X`, `P` unchanged and `PC = L`. -/
def Obligations.LdaStep : Prop :=
  ∀ s : State, s.rs = .running → s.mem.read? s.pc.toNat = some 0xA9#8 →
    (∀ imm, s.mem.read? (s.pc.toNat + 1) = some imm →
      ∃ t, step s = .next t ∧ t = { s with a := imm, p := znByte s.p imm, pc := s.pc + 2#16 } ∧
        t.pc.toNat = s.pc.toNat + 2 ∧
        (t.p.getLsbD 1 = true ↔ imm = 0x00#8) ∧ t.p.getLsbD 7 = imm.getLsbD 7 ∧
        (∀ i, i ≠ 1 → i ≠ 7 → t.p.getLsbD i = s.p.getLsbD i)) ∧
    (s.mem.len.toNat = s.pc.toNat + 1 →
      step s = .next { s with pc := s.mem.len, rs := .faulted, fr := some (.outOfBounds s.mem.len .operand) })

/-- R75: a step at a TAX opcode copies `A` to `X`, with `PC` advanced by 1 and the flags those of the new `X`. -/
def Obligations.TaxStep : Prop :=
  ∀ s : State, s.rs = .running → s.mem.read? s.pc.toNat = some 0xAA#8 →
    ∃ t, step s = .next t ∧ t = { s with x := s.a, p := znByte s.p s.a, pc := s.pc + 1#16 } ∧
      t.pc.toNat = s.pc.toNat + 1 ∧
      (t.p.getLsbD 1 = true ↔ t.x = 0x00#8) ∧ t.p.getLsbD 7 = t.x.getLsbD 7 ∧
      (∀ i, i ≠ 1 → i ≠ 7 → t.p.getLsbD i = s.p.getLsbD i)

/-- R76: a step at an INX opcode adds 1 to `X` modulo 256, with `PC` advanced by 1; Zero exactly when the old `X` is 0xFF,
Negative exactly when it is 0x7F to 0xFE, no other bit of `P`; and 256 INX return `X` to its value. -/
def Obligations.InxStep : Prop :=
  (∀ s : State, s.rs = .running → s.mem.read? s.pc.toNat = some 0xE8#8 →
    ∃ t, step s = .next t ∧ t = { s with x := t.x, p := t.p, pc := s.pc + 1#16 } ∧
      t.x.toNat = (s.x.toNat + 1) % 256 ∧ t.pc.toNat = s.pc.toNat + 1 ∧
      (t.p.getLsbD 1 = true ↔ s.x = 0xFF#8) ∧
      (t.p.getLsbD 7 = true ↔ 0x7F ≤ s.x.toNat ∧ s.x.toNat ≤ 0xFE) ∧
      (∀ i, i ≠ 1 → i ≠ 7 → t.p.getLsbD i = s.p.getLsbD i)) ∧
  (∀ s : State, ∃ t, execAll (List.replicate 256 .inx) s = .next t ∧ t.x = s.x ∧ t.a = s.a)

/-- R77, R63 (that `PC` is past the HALT byte is the spec's derivation): a step at a HALT opcode sets `RS` to Halted, with
`PC` advanced by 1, whatever stands after it. -/
def Obligations.HaltStep : Prop :=
  ∀ s : State, s.rs = .running → s.mem.read? s.pc.toNat = some 0x00#8 →
    ∃ t, step s = .next t ∧ t = { s with rs := .halted, pc := s.pc + 1#16 } ∧ t.pc.toNat = s.pc.toNat + 1

/-! ### Rules about the whole machine -/

/-- R15: only LDA writes `A`, and only TAX reads it: LDA loads it and TAX copies it, a step that changes it runs LDA, and a step
that does not run TAX goes the same way whatever `A` holds. -/
def Obligations.AccumulatorIsWrittenByLdaAndReadByTax : Prop :=
  ∀ s t : State, step s = .next t →
    (∀ imm, stepInstr s = some (.lda imm) → t.a = imm) ∧
    (stepInstr s = some .tax → t.x = s.a) ∧
    (t.a ≠ s.a → ∃ imm, stepInstr s = some (.lda imm)) ∧
    (stepInstr s ≠ some .tax → ∀ a', ∃ a'', step { s with a := a' } = .next { t with a := a'' })

/-- R16: only TAX and INX write `X`, and only INX reads it. -/
def Obligations.IndexIsWrittenByTaxAndInxAndReadByInx : Prop :=
  ∀ s t : State, step s = .next t →
    (stepInstr s = some .tax → t.x = s.a) ∧
    (stepInstr s = some .inx → t.x = s.x + 1#8) ∧
    (t.x ≠ s.x → stepInstr s = some .tax ∨ stepInstr s = some .inx) ∧
    (stepInstr s ≠ some .inx → ∀ x', ∃ x'', step { s with x := x' } = .next { t with x := x'' })

/-- R19, R20, R22, R23: a step that runs LDA sets the flags of the new `A`, one that runs TAX or INX those of the new `X`, any
other leaves `P` as it was, and the reserved bits stay in every step. -/
def Obligations.FlagsFollowTheResultRegister : Prop :=
  ∀ s t : State, step s = .next t →
    (∀ imm, stepInstr s = some (.lda imm) → t.p = znByte s.p t.a) ∧
    (stepInstr s = some .tax ∨ stepInstr s = some .inx → t.p = znByte s.p t.x) ∧
    (stepInstr s = some .halt ∨ stepInstr s = none → t.p = s.p) ∧
    t.p &&& 0x7D#8 = s.p &&& 0x7D#8

/-- R22, R57: no instruction reads `P`: a run goes the same way, but for `P`, whatever status byte it starts with, and
keeps that byte's reserved bits. -/
def Obligations.NoInstructionReadsTheStatusByte : Prop :=
  ∀ (k : Nat) (s t : State) (q : Byte), runFor k s = .next t →
    ∃ q', runFor k { s with p := q } = .next { t with p := q' } ∧ q' &&& 0x7D#8 = q &&& 0x7D#8

/-- R25: `PC` advances by 1 for each byte consumed and in no other way: by 1 or 2 past an instruction, by 1 past an opcode
that faults after its fetch, and otherwise not at all. -/
def Obligations.PcAdvancesByTheBytesConsumed : Prop :=
  ∀ s t : State, step s = .next t →
    (∀ imm, stepInstr s = some (.lda imm) → t.pc.toNat = s.pc.toNat + 2) ∧
    (∀ i, stepInstr s = some i → (∀ imm, i ≠ .lda imm) → t.pc.toNat = s.pc.toNat + 1) ∧
    (stepInstr s = none →
      t.pc.toNat = s.pc.toNat + (if s.rs = .running ∧ s.pc.toNat < s.mem.len.toNat then 1 else 0))

/-- R29 (the spec's decision D1), R105: the run status changes only from Running, to Halted by HALT and to Faulted by a step
that runs no instruction. -/
def Obligations.RunsEndByHaltOrFault : Prop :=
  ∀ s t : State, step s = .next t → t.rs ≠ s.rs →
    s.rs = .running ∧
    ((stepInstr s = some .halt ∧ t.rs = .halted ∧ t.fr = s.fr) ∨
     (stepInstr s = none ∧ t.rs = .faulted ∧ t.fr.isSome = true))

/-- R38, R39, R47: no run changes a byte of the program or its length. -/
def Obligations.RunsNeverWriteTheProgram : Prop :=
  ∀ (k : Nat) (s t : State), runFor k s = .next t →
    t.mem.len = s.mem.len ∧ ∀ addr, t.mem.read? addr = s.mem.read? addr

/-- R77, R105: a run that has not run out of bytes depends on no byte at or past its last `PC`: on any program that agrees
below it, it goes the same way. Steps past the run's end are log 2's. -/
def Obligations.BytesPastTheEndAreNeverRead : Prop :=
  ∀ (k : Nat) (s t : State) (m : Memory), runFor k s = .next t →
    (t.rs ≠ .faulted ∨ ∃ op offset, t.fr = some (.unknownOpcode op offset)) →
    t.pc.toNat ≤ m.len.toNat → (∀ addr, addr < t.pc.toNat → m.read? addr = s.mem.read? addr) →
    runFor k { s with mem := m } = .next { t with mem := m }

/-- R101, R61: a run of instructions held at `PC`, none of them HALT, is their meanings applied in order, `PC` moved past an
instruction's bytes before its meaning (log 5). -/
def Obligations.RunIsTheMeaningsInOrder : Prop :=
  ∀ (is : List Instr) (s : State), s.rs = .running → (∀ i ∈ is, i ≠ .halt) →
    holdsAt s.mem s.pc.toNat (is.flatMap encode) →
    ∃ t, runFor is.length s = .next t ∧ execAll is s = .next t ∧ t.rs = .running ∧
      t.pc.toNat = s.pc.toNat + (is.flatMap encode).length

/-! ### Invariants and the end of a run -/

/-- The state after reset meets the invariant. -/
def Obligations.ResetMeetsTheInvariant : Prop :=
  RunInv State.reset ∧ endAgrees State.reset ∧ flagsDescribe State.reset

/-- The start of every launched run meets the invariants. -/
def Obligations.LaunchMeetsTheInvariant : Prop :=
  ∀ (program : List Byte) (s : State), launch program = .next s → RunInv s ∧ endAgrees s ∧ flagsDescribe s

/-- R21, R26, R30, R38: every step keeps the invariant. -/
def Obligations.StepKeepsTheInvariant : Prop :=
  ∀ s t : State, RunInv s → step s = .next t → RunInv t

/-- R77, R80, R81, R82: every step keeps the agreement of the run's end with the program: a Halted state stands one past a HALT
byte, an OutOfBounds record names `L`, an UnknownOpcode record names an illegal byte and where it stands. -/
def Obligations.StepKeepsTheEndAgreement : Prop :=
  ∀ s t : State, RunInv s → endAgrees s → step s = .next t → endAgrees t

/-- R23: every step keeps the status byte that of the start, or the flags of `A` or of `X`. -/
def Obligations.StepKeepsFlagsDescribing : Prop :=
  ∀ s t : State, flagsDescribe s → step s = .next t → flagsDescribe t

/-- Log 3: in canonical form, memories that read alike are equal data. -/
def Obligations.CanonicalMemoriesThatReadAlikeAreEqual : Prop :=
  ∀ m m' : Memory, m.wf = true → m'.wf = true → (∀ addr, m.read? addr = m'.read? addr) → m = m'

/-- R73: from every state with `PC <= L` the run ends within `L - PC + 1` steps. -/
def Obligations.EveryRunEndsWithinItsLength : Prop :=
  ∀ s : State, s.pc.toNat ≤ s.mem.len.toNat →
    ∃ k t, k ≤ s.mem.len.toNat - s.pc.toNat + 1 ∧ runFor k s = .next t ∧ t.rs ≠ .running

/-- R73, R80, R81, R105: every program that fits runs, within its length and one more steps, to a HALT byte of it, to its
end, to an LDA opcode that is its last byte, or to an illegal byte of it, and the result says which. The launch is log 6's
form of load and start, and the steps past an end that comes earlier are log 2's. -/
def Obligations.EveryProgramRunsToItsResult : Prop :=
  ∀ program : List Byte, program.length ≤ 0xFFFF →
    ∃ s t, launch program = .next s ∧ runFor (program.length + 1) s = .next t ∧
      t.pc.toNat ≤ program.length ∧
      ((t.rs = .halted ∧ t.fr = none ∧ 0 < t.pc.toNat ∧ program[t.pc.toNat - 1]? = some 0x00#8) ∨
       (t.rs = .faulted ∧ t.fr = some (.outOfBounds t.pc .opcode) ∧ t.pc.toNat = program.length) ∨
       (t.rs = .faulted ∧ t.fr = some (.outOfBounds t.pc .operand) ∧ t.pc.toNat = program.length ∧
          program.getLast? = some 0xA9#8) ∨
       (∃ op offset, t.rs = .faulted ∧ t.fr = some (.unknownOpcode op offset) ∧
          offset.toNat + 1 = t.pc.toNat ∧ program[offset.toNat]? = some op ∧ ¬ legalOpcode op))
end

