-- ==== Sys2Proof/Laws/Decode.lean ====
section
/-! SUPPORT. The dispatch on an opcode byte, and the bits of the flag unit. -/

namespace Sys2Proof

/-- Dispatch finds an opcode exactly at its own byte. -/
theorem Opcode.ofByte?_eq_some {b : Byte} {o : Opcode} : Opcode.ofByte? b = some o ↔ b = o.byte := by
  unfold Opcode.ofByte?
  constructor
  · intro h
    split at h
    · cases h; assumption
    · split at h
      · cases h; assumption
      · split at h
        · cases h; assumption
        · split at h
          · cases h; assumption
          · cases h
  · rintro rfl
    cases o <;> rfl

/-- Dispatch finds nothing exactly at the illegal bytes. -/
theorem Opcode.ofByte?_eq_none {b : Byte} : Opcode.ofByte? b = none ↔ ¬ Machine.legalOpcode b := by
  unfold Opcode.ofByte?
  by_cases h1 : b = 0xA9#8
  · simp [h1]
  · by_cases h2 : b = 0xAA#8
    · simp [h2]
    · by_cases h3 : b = 0xE8#8
      · simp [h3]
      · by_cases h4 : b = 0x00#8
        · simp [h4]
        · simp [h1, h2, h3, h4]

namespace Machine

/-- Writing one bit writes that bit and no other. -/
theorem withBit_getLsbD (v : Byte) {i : Nat} (b : Bool) (j : Nat) (hi : i < 8) :
    (withBit v i b).getLsbD j = if j = i then b else v.getLsbD j := by
  unfold withBit
  by_cases hj : j < 8
  · by_cases hji : j = i
    · subst hji
      cases b <;> simp [hj]
    · have hone : (1#8 <<< i).getLsbD j = false := by
        simp only [BitVec.getLsbD_shiftLeft, BitVec.getLsbD_one]
        simp
        omega
      cases b
      · simp only [Bool.false_eq_true, if_false, BitVec.getLsbD_and, BitVec.getLsbD_not, hone, hj, hji]
        simp
      · simp only [if_true, BitVec.getLsbD_or, hone, hji, Bool.or_false, if_false]
  · have h8 : ∀ w : Byte, w.getLsbD j = false := fun w => BitVec.getLsbD_of_ge w j (by omega)
    rw [h8, h8, if_neg (by omega)]

end Machine

end Sys2Proof
end

