-- ==== Sys2Proof/Laws/Memory.lean ====
section
/-! SUPPORT. The program memory: reads, the loader's writes, and the canonical form. -/

namespace Sys2Proof.Machine

theorem Memory.read?_of_lt {m : Memory} {addr : Nat} (h : addr < m.len.toNat) :
    m.read? addr = some (cellAt m.cells addr) := by
  simp [Memory.read?, Memory.inBounds, h]

theorem Memory.read?_eq_none {m : Memory} {addr : Nat} : m.read? addr = none ↔ m.len.toNat ≤ addr := by
  simp [Memory.read?, Memory.inBounds]

theorem Memory.lt_of_read?_eq_some {m : Memory} {addr : Nat} {b : Byte} (h : m.read? addr = some b) :
    addr < m.len.toNat := by
  by_contra hn
  simp [Memory.read?_eq_none.mpr (Nat.le_of_not_lt hn)] at h

/-- A canonical list between two bounds is one between wider bounds. -/
theorem cellsWf_mono {lo lo' hi hi' : Nat} (hlo : lo' ≤ lo) (hhi : hi ≤ hi') :
    ∀ {cs : List Host.Cell}, cellsWf lo hi cs = true → cellsWf lo' hi' cs = true := by
  intro cs
  induction cs generalizing lo lo' with
  | nil => intro _; rfl
  | cons c cs ih =>
    obtain ⟨k, b⟩ := c
    simp only [cellsWf, Bool.and_eq_true, decide_eq_true_eq]
    rintro ⟨⟨⟨h1, h2⟩, h3⟩, h4⟩
    exact ⟨⟨⟨by omega, by omega⟩, h3⟩, ih (le_refl _) h4⟩

/-- Below its lower bound a canonical list has nothing listed. -/
theorem cellAt_below {lo hi addr : Nat} (h : addr < lo) :
    ∀ {cs : List Host.Cell}, cellsWf lo hi cs = true → cellAt cs addr = Config.unlistedByte := by
  intro cs
  induction cs generalizing lo with
  | nil => intro _; rfl
  | cons c cs ih =>
    obtain ⟨k, b⟩ := c
    simp only [cellsWf, Bool.and_eq_true, decide_eq_true_eq]
    rintro ⟨⟨⟨h1, h2⟩, h3⟩, h4⟩
    have hk : k ≠ addr := by omega
    simp only [cellAt, hk, if_false]
    exact ih (by omega) h4

/-- Setting a byte in bounds keeps the canonical form. -/
theorem setCell_wf {lo hi addr : Nat} {b : Byte} (hlo : lo ≤ addr) (hhi : addr < hi) :
    ∀ {cs : List Host.Cell}, cellsWf lo hi cs = true → cellsWf lo hi (setCell cs addr b) = true := by
  intro cs
  induction cs generalizing lo with
  | nil => intro _; by_cases hb : b = Config.unlistedByte <;> simp [setCell, cellsWf, hb, hlo, hhi]
  | cons c cs ih =>
    obtain ⟨k, d⟩ := c
    simp only [cellsWf, Bool.and_eq_true, decide_eq_true_eq]
    rintro ⟨⟨⟨h1, h2⟩, h3⟩, h4⟩
    unfold setCell
    by_cases hlt : addr < k
    · by_cases hb : b = Config.unlistedByte <;> simp [hlt, hb, cellsWf, h1, h2, h3, h4, hlo, hhi, Nat.succ_le_of_lt hlt]
    · by_cases heq : addr = k
      · subst heq
        by_cases hb : b = Config.unlistedByte
        · simp only [hb, lt_irrefl, if_false, if_true]
          exact cellsWf_mono (by omega) (le_refl _) h4
        · simp [hb, cellsWf, h1, h2, h4]
      · simp only [hlt, heq, if_false, cellsWf, Bool.and_eq_true, decide_eq_true_eq]
        exact ⟨⟨⟨h1, h2⟩, h3⟩, ih (by omega) h4⟩

/-- Reading back the byte that was set. -/
theorem cellAt_setCell_same {lo hi addr : Nat} {b : Byte} :
    ∀ {cs : List Host.Cell}, cellsWf lo hi cs = true → cellAt (setCell cs addr b) addr = b := by
  intro cs
  induction cs generalizing lo with
  | nil => intro _; by_cases hb : b = Config.unlistedByte <;> simp [setCell, cellAt, hb]
  | cons c cs ih =>
    obtain ⟨k, d⟩ := c
    simp only [cellsWf, Bool.and_eq_true, decide_eq_true_eq]
    rintro ⟨⟨⟨h1, h2⟩, h3⟩, h4⟩
    unfold setCell
    by_cases hlt : addr < k
    · by_cases hb : b = Config.unlistedByte
      · have hk : k ≠ addr := by omega
        simp only [hlt, hb, if_true, cellAt, hk, if_false]
        exact cellAt_below (by omega) h4
      · simp [hlt, hb, cellAt]
    · by_cases heq : addr = k
      · subst heq
        by_cases hb : b = Config.unlistedByte
        · simp only [hb, lt_irrefl, if_false, if_true]
          exact cellAt_below (by omega) h4
        · simp [hb, cellAt]
      · have hk : k ≠ addr := fun h => heq h.symm
        simp only [hlt, heq, if_false, cellAt, hk]
        exact ih h4

/-- Setting one byte leaves every other address as it was. -/
theorem cellAt_setCell_other {addr other : Nat} {b : Byte} (hne : other ≠ addr) :
    ∀ {cs : List Host.Cell}, cellAt (setCell cs addr b) other = cellAt cs other := by
  intro cs
  induction cs with
  | nil => by_cases hb : b = Config.unlistedByte <;> simp [setCell, cellAt, hb, hne.symm]
  | cons c cs ih =>
    obtain ⟨k, d⟩ := c
    unfold setCell
    by_cases hlt : addr < k
    · by_cases hb : b = Config.unlistedByte <;> simp [hlt, hb, cellAt, hne.symm]
    · by_cases heq : addr = k
      · subst heq
        by_cases hb : b = Config.unlistedByte <;> simp [hb, cellAt, hne.symm]
      · simp only [hlt, heq, if_false, cellAt, ih]

theorem Memory.write_wf {m : Memory} (addr : Nat) (b : Byte) (h : m.wf = true) : (m.write addr b).wf = true := by
  unfold Memory.write
  split
  · rename_i hin
    simp only [Memory.inBounds, decide_eq_true_eq] at hin
    exact setCell_wf (Nat.zero_le _) hin h
  · exact h

@[simp] theorem Memory.write_len (m : Memory) (addr : Nat) (b : Byte) : (m.write addr b).len = m.len := by
  unfold Memory.write; split <;> rfl

theorem Memory.read?_write_same {m : Memory} {addr : Nat} {b : Byte} (h : m.wf = true) (hin : addr < m.len.toNat) :
    (m.write addr b).read? addr = some b := by
  rw [Memory.read?_of_lt (by simpa using hin)]
  simp only [Memory.write, Memory.inBounds, hin, decide_true, if_true]
  exact congrArg some (cellAt_setCell_same h)

theorem Memory.read?_write_other {m : Memory} {addr other : Nat} {b : Byte} (hne : other ≠ addr) :
    (m.write addr b).read? other = m.read? other := by
  unfold Memory.write
  split
  · simp [Memory.read?, Memory.inBounds, cellAt_setCell_other hne]
  · rfl

theorem Memory.growTo_len_toNat (m : Memory) (n : Nat) :
    (m.growTo n).len.toNat = max m.len.toNat (min n 0xFFFF) := by
  have hm := m.len.isLt
  unfold Memory.growTo
  split
  · simp only [Config.maxProgramLen, BitVec.toNat_ofNat]
    omega
  · omega

@[simp] theorem Memory.growTo_cells (m : Memory) (n : Nat) : (m.growTo n).cells = m.cells := by
  unfold Memory.growTo; split <;> rfl

theorem Memory.growTo_wf {m : Memory} (n : Nat) (h : m.wf = true) : (m.growTo n).wf = true := by
  unfold Memory.wf
  rw [Memory.growTo_cells, Memory.growTo_len_toNat]
  exact cellsWf_mono (le_refl _) (le_max_left _ _) h

theorem cellsFrom_wf {hi : Nat} (bs : List Byte) : ∀ {addr : Nat}, addr + bs.length ≤ hi →
    cellsWf addr hi (cellsFrom addr bs) = true := by
  induction bs with
  | nil => intro addr _; rfl
  | cons b bs ih =>
    intro addr h
    simp only [List.length_cons] at h
    have ih' := ih (addr := addr + 1) (by omega)
    by_cases hb : b = Config.unlistedByte
    · simp only [cellsFrom, hb, if_true]
      exact cellsWf_mono (by omega) (le_refl _) ih'
    · simp only [cellsFrom, hb, if_false, cellsWf, ih', Bool.and_true, Bool.and_eq_true, decide_eq_true_eq]
      exact ⟨⟨by omega, by omega⟩, hb⟩

/-- A laid out byte sequence reads as the sequence does. -/
theorem cellAt_cellsFrom (bs : List Byte) : ∀ addr k : Nat,
    cellAt (cellsFrom addr bs) (addr + k) = (bs[k]?).getD Config.unlistedByte := by
  induction bs with
  | nil => intro addr k; rfl
  | cons b bs ih =>
    intro addr k
    have hwf := cellsFrom_wf bs (addr := addr + 1) (hi := addr + 1 + bs.length) (le_refl _)
    cases k with
    | zero =>
      by_cases hb : b = Config.unlistedByte
      · simp only [cellsFrom, hb, if_true]
        rw [cellAt_below (by omega) hwf]
        rfl
      · simp [cellsFrom, hb, cellAt]
    | succ k =>
      have hk := ih (addr + 1) k
      rw [show addr + (k + 1) = addr + 1 + k by omega, List.getElem?_cons_succ]
      by_cases hb : b = Config.unlistedByte
      · simp only [cellsFrom, hb, if_true, hk]
      · simp only [cellsFrom, hb, if_false, cellAt]
        rw [if_neg (by omega), hk]

theorem Memory.ofBytes_wf {program : List Byte} (h : programFits program = true) :
    (Memory.ofBytes program).wf = true := by
  have h' : program.length ≤ 0xFFFF := of_decide_eq_true h
  refine cellsFrom_wf program ?_
  simp only [Memory.ofBytes, BitVec.toNat_ofNat]
  omega

end Sys2Proof.Machine
end

