-- ==== Sys2Proof/Laws/PerInstr.lean ====
section
/-! SUPPORT. Facts about every instruction as syntax, one lemma a constructor. -/

namespace Sys2Proof.Laws.Encoding

/-- The encoding of `i` is as long as its opcode says and starts with its opcode's byte (30_encoding R49, R52, R56). -/
def Statement (i : Instr) : Prop :=
  i.wf = true ∧ (encode i).length = i.length ∧ (encode i).head? = some i.opcode.byte ∧
    Opcode.ofByte? i.opcode.byte = some i.opcode

theorem lda (imm : Byte) : Statement (.lda imm) := ⟨rfl, rfl, rfl, rfl⟩

theorem tax : Statement .tax := ⟨rfl, rfl, rfl, rfl⟩

theorem inx : Statement .inx := ⟨rfl, rfl, rfl, rfl⟩

theorem halt : Statement .halt := ⟨rfl, rfl, rfl, rfl⟩

end Sys2Proof.Laws.Encoding
end

