-- ==== Sys2Proof/Laws/State.lean ====
section
/-! SUPPORT. What each named update leaves in each field, one lemma a field and update. -/

namespace Sys2Proof.Machine

@[simp] theorem State.setA_a (s : State) (v : Byte) : (s.setA v).a = v := rfl
@[simp] theorem State.setA_x (s : State) (v : Byte) : (s.setA v).x = s.x := rfl
@[simp] theorem State.setA_p (s : State) (v : Byte) : (s.setA v).p = s.p := rfl
@[simp] theorem State.setA_pc (s : State) (v : Byte) : (s.setA v).pc = s.pc := rfl
@[simp] theorem State.setA_rs (s : State) (v : Byte) : (s.setA v).rs = s.rs := rfl
@[simp] theorem State.setA_fr (s : State) (v : Byte) : (s.setA v).fr = s.fr := rfl
@[simp] theorem State.setA_mem (s : State) (v : Byte) : (s.setA v).mem = s.mem := rfl

@[simp] theorem State.setX_a (s : State) (v : Byte) : (s.setX v).a = s.a := rfl
@[simp] theorem State.setX_x (s : State) (v : Byte) : (s.setX v).x = v := rfl
@[simp] theorem State.setX_p (s : State) (v : Byte) : (s.setX v).p = s.p := rfl
@[simp] theorem State.setX_pc (s : State) (v : Byte) : (s.setX v).pc = s.pc := rfl
@[simp] theorem State.setX_rs (s : State) (v : Byte) : (s.setX v).rs = s.rs := rfl
@[simp] theorem State.setX_fr (s : State) (v : Byte) : (s.setX v).fr = s.fr := rfl
@[simp] theorem State.setX_mem (s : State) (v : Byte) : (s.setX v).mem = s.mem := rfl

@[simp] theorem State.setP_a (s : State) (v : Byte) : (s.setP v).a = s.a := rfl
@[simp] theorem State.setP_x (s : State) (v : Byte) : (s.setP v).x = s.x := rfl
@[simp] theorem State.setP_p (s : State) (v : Byte) : (s.setP v).p = v := rfl
@[simp] theorem State.setP_pc (s : State) (v : Byte) : (s.setP v).pc = s.pc := rfl
@[simp] theorem State.setP_rs (s : State) (v : Byte) : (s.setP v).rs = s.rs := rfl
@[simp] theorem State.setP_fr (s : State) (v : Byte) : (s.setP v).fr = s.fr := rfl
@[simp] theorem State.setP_mem (s : State) (v : Byte) : (s.setP v).mem = s.mem := rfl

@[simp] theorem State.advancePc_a (s : State) : s.advancePc.a = s.a := rfl
@[simp] theorem State.advancePc_x (s : State) : s.advancePc.x = s.x := rfl
@[simp] theorem State.advancePc_p (s : State) : s.advancePc.p = s.p := rfl
@[simp] theorem State.advancePc_pc (s : State) : s.advancePc.pc = s.pc + 1#16 := rfl
@[simp] theorem State.advancePc_rs (s : State) : s.advancePc.rs = s.rs := rfl
@[simp] theorem State.advancePc_fr (s : State) : s.advancePc.fr = s.fr := rfl
@[simp] theorem State.advancePc_mem (s : State) : s.advancePc.mem = s.mem := rfl

@[simp] theorem State.skip_a (s : State) (n : Nat) : (s.skip n).a = s.a := rfl
@[simp] theorem State.skip_x (s : State) (n : Nat) : (s.skip n).x = s.x := rfl
@[simp] theorem State.skip_p (s : State) (n : Nat) : (s.skip n).p = s.p := rfl
@[simp] theorem State.skip_pc (s : State) (n : Nat) : (s.skip n).pc = s.pc + BitVec.ofNat 16 n := rfl
@[simp] theorem State.skip_rs (s : State) (n : Nat) : (s.skip n).rs = s.rs := rfl
@[simp] theorem State.skip_fr (s : State) (n : Nat) : (s.skip n).fr = s.fr := rfl
@[simp] theorem State.skip_mem (s : State) (n : Nat) : (s.skip n).mem = s.mem := rfl

@[simp] theorem State.stop_a (s : State) : s.stop.a = s.a := rfl
@[simp] theorem State.stop_x (s : State) : s.stop.x = s.x := rfl
@[simp] theorem State.stop_p (s : State) : s.stop.p = s.p := rfl
@[simp] theorem State.stop_pc (s : State) : s.stop.pc = s.pc := rfl
@[simp] theorem State.stop_rs (s : State) : s.stop.rs = .halted := rfl
@[simp] theorem State.stop_fr (s : State) : s.stop.fr = s.fr := rfl
@[simp] theorem State.stop_mem (s : State) : s.stop.mem = s.mem := rfl

@[simp] theorem raiseFault_a (f : Fault) (s : State) : (raiseFault f s).a = s.a := rfl
@[simp] theorem raiseFault_x (f : Fault) (s : State) : (raiseFault f s).x = s.x := rfl
@[simp] theorem raiseFault_p (f : Fault) (s : State) : (raiseFault f s).p = s.p := rfl
@[simp] theorem raiseFault_pc (f : Fault) (s : State) : (raiseFault f s).pc = s.pc := rfl
@[simp] theorem raiseFault_rs (f : Fault) (s : State) : (raiseFault f s).rs = .faulted := rfl
@[simp] theorem raiseFault_fr (f : Fault) (s : State) : (raiseFault f s).fr = some f := rfl
@[simp] theorem raiseFault_mem (f : Fault) (s : State) : (raiseFault f s).mem = s.mem := rfl

@[simp] theorem startState_a (m : Memory) : (startState m).a = 0x00#8 := rfl
@[simp] theorem startState_x (m : Memory) : (startState m).x = 0x00#8 := rfl
@[simp] theorem startState_p (m : Memory) : (startState m).p = 0x00#8 := rfl
@[simp] theorem startState_pc (m : Memory) : (startState m).pc = 0x0000#16 := rfl
@[simp] theorem startState_rs (m : Memory) : (startState m).rs = .running := rfl
@[simp] theorem startState_fr (m : Memory) : (startState m).fr = none := rfl
@[simp] theorem startState_mem (m : Memory) : (startState m).mem = m := rfl

@[simp] theorem setZN_a (v : Byte) (s : State) : (setZN v s).a = s.a := rfl
@[simp] theorem setZN_x (v : Byte) (s : State) : (setZN v s).x = s.x := rfl
@[simp] theorem setZN_p (v : Byte) (s : State) : (setZN v s).p = withBit (withBit s.p 1 (decide (v = 0x00#8))) 7 (bitOf v 7) := rfl
@[simp] theorem setZN_pc (v : Byte) (s : State) : (setZN v s).pc = s.pc := rfl
@[simp] theorem setZN_rs (v : Byte) (s : State) : (setZN v s).rs = s.rs := rfl
@[simp] theorem setZN_fr (v : Byte) (s : State) : (setZN v s).fr = s.fr := rfl
@[simp] theorem setZN_mem (v : Byte) (s : State) : (setZN v s).mem = s.mem := rfl

end Sys2Proof.Machine
end

