-- ==== Sys2Proof/Laws/Step.lean ====
section
/-! SUPPORT. What a fetch and a step can do, said once. -/

namespace Sys2Proof.Machine

theorem core_run_succ (M : Host.Core) (k : Nat) (s : M.State) :
    M.run (k + 1) s = match M.step s with
      | .next t => M.run k t
      | .fault f => .fault f
      | .refused r => .refused r := rfl

/-- The host's run of the machine is `runFor`. -/
theorem runFor_eq_core_run (k : Nat) (s : State) : Host.Core.run Sys2Proof.core k s = runFor k s := by
  induction k generalizing s with
  | zero => rfl
  | succ k ih =>
    refine (core_run_succ Sys2Proof.core k s).trans ?_
    have hs : Sys2Proof.core.step s = step s := rfl
    rw [hs, runFor]
    cases step s with
    | next t => exact ih t
    | fault f => rfl
    | refused r => rfl

theorem fetchByte_in {s : State} {phase : FetchPhase} {v : Byte} (h : s.mem.read? s.pc.toNat = some v) :
    fetchByte phase s = .got v s.advancePc := by
  simp [fetchByte, h]

theorem fetchByte_out {s : State} {phase : FetchPhase} (h : s.mem.read? s.pc.toNat = none) :
    fetchByte phase s = .ended (raiseFault (.outOfBounds s.pc phase) s) := by
  simp [fetchByte, h]

/-- An advance made where a byte was read does not overflow. -/
theorem advancePc_toNat {s : State} {v : Byte} (h : s.mem.read? s.pc.toNat = some v) :
    (s.pc + 1#16).toNat = s.pc.toNat + 1 := by
  have hlt := Memory.lt_of_read?_eq_some h
  have hL := s.mem.len.isLt
  simp only [BitVec.toNat_add, BitVec.toNat_ofNat]
  omega

/-- The states a running fetch can end in, and the instructions it can give. -/
theorem fetchRunning_cases (s : State) :
    (s.mem.read? s.pc.toNat = none ∧ fetchRunning s = .ended (raiseFault (.outOfBounds s.pc .opcode) s)) ∨
    (∃ b, s.mem.read? s.pc.toNat = some b ∧
      ((Opcode.ofByte? b = none ∧ fetchRunning s = .ended (raiseFault (.unknownOpcode b s.pc) s.advancePc)) ∨
       (Opcode.ofByte? b = some .lda ∧ s.mem.read? (s.pc.toNat + 1) = none ∧
          fetchRunning s = .ended (raiseFault (.outOfBounds (s.pc + 1#16) .operand) s.advancePc)) ∨
       (∃ v, Opcode.ofByte? b = some .lda ∧ s.mem.read? (s.pc.toNat + 1) = some v ∧
          fetchRunning s = .got (.lda v) s.advancePc.advancePc) ∨
       (Opcode.ofByte? b = some .tax ∧ fetchRunning s = .got .tax s.advancePc) ∨
       (Opcode.ofByte? b = some .inx ∧ fetchRunning s = .got .inx s.advancePc) ∨
       (Opcode.ofByte? b = some .halt ∧ fetchRunning s = .got .halt s.advancePc))) := by
  unfold fetchRunning fetchOpcode fetchOperand
  cases h : s.mem.read? s.pc.toNat with
  | none => exact .inl ⟨rfl, by rw [fetchByte_out h]⟩
  | some b =>
    refine .inr ⟨b, rfl, ?_⟩
    rw [fetchByte_in h]
    cases ho : Opcode.ofByte? b with
    | none => simp [ho]
    | some o =>
      cases o with
      | tax => simp [ho]
      | inx => simp [ho]
      | halt => simp [ho]
      | lda =>
        have hpc : s.advancePc.pc.toNat = s.pc.toNat + 1 := advancePc_toNat h
        cases hv : s.mem.read? (s.pc.toNat + 1) with
        | none =>
          have hf : s.advancePc.mem.read? s.advancePc.pc.toNat = none := by rw [hpc]; exact hv
          simp [ho, fetchByte_out hf]
        | some v =>
          have hf : s.advancePc.mem.read? s.advancePc.pc.toNat = some v := by rw [hpc]; exact hv
          simp [ho, fetchByte_in hf]

theorem step_of_got {s s' : State} {i : Instr} (h : fetchInstr s = .got i s') : step s = exec i s' := by
  simp [step, h]

theorem step_of_ended {s s' : State} (h : fetchInstr s = .ended s') : step s = .next s' := by
  simp [step, h]

theorem fetchInstr_running {s : State} (h : s.rs = .running) : fetchInstr s = fetchRunning s := by
  simp [fetchInstr, h]

/-- Once the run is over a step changes nothing (log 2). -/
theorem fetchInstr_done {s : State} (h : s.rs ≠ .running) : fetchInstr s = .ended s := by
  unfold fetchInstr
  cases hr : s.rs <;> simp_all

/-- Everything a step can do: nothing, once the run is over; one of the three faults of the fetch and dispatch; or the
meaning of the instruction at `PC`, from past its bytes. -/
theorem step_cases {s t : State} (hst : step s = .next t) :
    (s.rs ≠ .running ∧ stepInstr s = none ∧ t = s) ∨
    (s.rs = .running ∧ stepInstr s = none ∧ s.mem.len.toNat ≤ s.pc.toNat ∧
      t = raiseFault (.outOfBounds s.pc .opcode) s) ∨
    (∃ b, s.rs = .running ∧ stepInstr s = none ∧ s.mem.read? s.pc.toNat = some b ∧ ¬ legalOpcode b ∧
      t = raiseFault (.unknownOpcode b s.pc) s.advancePc) ∨
    (s.rs = .running ∧ stepInstr s = none ∧ s.mem.read? s.pc.toNat = some 0xA9#8 ∧
      s.mem.len.toNat = s.pc.toNat + 1 ∧ t = raiseFault (.outOfBounds (s.pc + 1#16) .operand) s.advancePc) ∨
    (∃ i, s.rs = .running ∧ stepInstr s = some i ∧ s.mem.read? s.pc.toNat = some i.opcode.byte ∧
      (∀ imm, i = .lda imm → s.mem.read? (s.pc.toNat + 1) = some imm) ∧
      (s.skip i.length).pc.toNat = s.pc.toNat + i.length ∧ exec i (s.skip i.length) = .next t) := by
  by_cases hr : s.rs = .running
  · right
    have hf := fetchInstr_running hr
    rcases fetchRunning_cases s with ⟨h, e⟩ | ⟨b, h, c⟩
    · rw [step_of_ended (hf.trans e)] at hst
      cases hst
      exact .inl ⟨hr, by simp [stepInstr, hf, e], Memory.read?_eq_none.mp h, rfl⟩
    · right
      have hp := advancePc_toNat h
      rcases c with ⟨ho, e⟩ | ⟨ho, hv, e⟩ | ⟨v, ho, hv, e⟩ | ⟨ho, e⟩ | ⟨ho, e⟩ | ⟨ho, e⟩
      · rw [step_of_ended (hf.trans e)] at hst
        cases hst
        exact .inl ⟨b, hr, by simp [stepInstr, hf, e], h, Opcode.ofByte?_eq_none.mp ho, rfl⟩
      · rw [step_of_ended (hf.trans e)] at hst
        cases hst
        have hb := Opcode.ofByte?_eq_some.mp ho
        have h1 := Memory.lt_of_read?_eq_some h
        have h2 := Memory.read?_eq_none.mp hv
        exact .inr (.inl ⟨hr, by simp [stepInstr, hf, e], by rw [h, hb]; rfl, by omega, rfl⟩)
      · rw [step_of_got (hf.trans e)] at hst
        have h2 : (s.pc + 1#16 + 1#16).toNat = (s.pc + 1#16).toNat + 1 := by
          have hv' : s.advancePc.mem.read? s.advancePc.pc.toNat = some v := by
            rw [State.advancePc_pc, hp]
            exact hv
          exact advancePc_toNat hv'
        have hskip : s.skip 2 = s.advancePc.advancePc := by
          simp only [State.skip, State.advancePc, BitVec.add_assoc]
          rfl
        refine .inr (.inr ⟨.lda v, hr, by simp [stepInstr, hf, e], ?_, ?_, ?_, ?_⟩)
        · rw [h, Opcode.ofByte?_eq_some.mp ho]
          rfl
        · rintro imm ⟨⟩
          exact hv
        · change (s.skip 2).pc.toNat = s.pc.toNat + 2
          rw [hskip]
          simp only [State.advancePc_pc]
          omega
        · change exec (.lda v) (s.skip 2) = .next t
          rw [hskip]
          exact hst
      · rw [step_of_got (hf.trans e)] at hst
        exact .inr (.inr ⟨.tax, hr, by simp [stepInstr, hf, e], by rw [h, Opcode.ofByte?_eq_some.mp ho]; rfl,
          fun _ hi => Instr.noConfusion hi, hp, hst⟩)
      · rw [step_of_got (hf.trans e)] at hst
        exact .inr (.inr ⟨.inx, hr, by simp [stepInstr, hf, e], by rw [h, Opcode.ofByte?_eq_some.mp ho]; rfl,
          fun _ hi => Instr.noConfusion hi, hp, hst⟩)
      · rw [step_of_got (hf.trans e)] at hst
        exact .inr (.inr ⟨.halt, hr, by simp [stepInstr, hf, e], by rw [h, Opcode.ofByte?_eq_some.mp ho]; rfl,
          fun _ hi => Instr.noConfusion hi, hp, hst⟩)
  · left
    have hf := fetchInstr_done hr
    rw [step_of_ended hf] at hst
    cases hst
    exact ⟨hr, by simp [stepInstr, hf], rfl⟩

end Sys2Proof.Machine
end

