-- ==== Sys2Proof/Tests/Slice0.lean ====
section
/-! SUPPORT. The model's own tests. Expected results are the spec's: the encodings of 30_encoding R52, the vectors of
95_test_vectors and the rules a test names. Each test is about one step; the witnesses show that a statement's
hypotheses can be met together, at the ends of its ranges. -/

namespace Sys2Proof.Tests

open Sys2Proof Sys2Proof.Machine

/-- A running state on a program, at an address of it. -/
def stateAt (program : List Byte) (pc : Addr) : State :=
  { State.reset with pc := pc, mem := Memory.ofBytes program }

/-- A program of `n` HALT bytes, and its length; long ones are not evaluated. -/
def halts (n : Nat) : List Byte := List.replicate n 0x00#8

theorem halts_length (n : Nat) : (halts n).length = n := List.length_replicate

/-- The state one step from `s`. -/
def after (s : State) : Option State := nextOf (step s)

/-! ### Well-formedness: what each check refuses -/

theorem test_sourceLine_wf_refuses_lda_256 : (SourceLine.lda 256).wf = false := by decide

theorem test_sourceLine_wf_refuses_byte_256 : (SourceLine.byte 256).wf = false := by decide

theorem test_programFits_refuses_65536_bytes : programFits (halts 0x10000) = false := by
  unfold programFits
  rw [halts_length]
  decide

theorem test_memory_wf_refuses_unlisted_value : Memory.wf { len := 2#16, cells := [(0, 0x00#8)] } = false := by decide

theorem test_memory_wf_refuses_falling_addresses :
    Memory.wf { len := 2#16, cells := [(1, 0xAA#8), (0, 0xAA#8)] } = false := by decide

/-! ### Decoding: words written out from 30_encoding R52 -/

theorem test_decode_lda : decode [0b10101001#8, 0b10000001#8] = .ok (.lda 0x81#8, []) := by rfl

theorem test_decode_tax : decode [0b10101010#8] = .ok (.tax, []) := by rfl

theorem test_decode_inx : decode [0b11101000#8] = .ok (.inx, []) := by rfl

theorem test_decode_halt : decode [0b00000000#8] = .ok (.halt, []) := by rfl

theorem test_decode_refuses_dex : decode [0xCA#8] = .error (.unknownOpcode 0xCA#8) := by rfl

theorem test_decode_lda_alone : decode [0xA9#8] = .error .missingOperand := by rfl

theorem test_decode_nothing : decode [] = .error .emptyStream := by rfl

theorem test_decodeTableWord_lda : decodeTableWord 16 0xC0A9 = some (.lda 0xC0#8) := by decide

theorem test_decodeTableWord_short_lda : decodeTableWord 8 0xA9 = some (.lda 0x00#8) := by decide

theorem test_decodeTableWord_unknown : decodeTableWord 8 0xEA = none := by decide

/-! ### The flag unit: V-F1 to V-F3 of 95_test_vectors, on a status byte no run reaches -/

theorem test_setZN_VF1 : (setZN 0x00#8 { State.reset with p := 0xFF#8 }).p = 0x7F#8 := by decide

theorem test_setZN_VF2 : (setZN 0x80#8 { State.reset with p := 0xFF#8 }).p = 0xFD#8 := by decide

theorem test_setZN_VF3 : (setZN 0x01#8 { State.reset with p := 0xFF#8 }).p = 0x7D#8 := by decide

/-! ### One step of each instruction -/

/-- V-L5: the first step of `[0xA9, 0xFF, 0x00]`. -/
theorem test_step_lda_ff : after (stateAt [0xA9#8, 0xFF#8, 0x00#8] 0#16) =
    some { stateAt [0xA9#8, 0xFF#8, 0x00#8] 2#16 with a := 0xFF#8, p := 0x80#8 } := by decide

/-- V-L8: the operand 0xE8 is data, no INX. -/
theorem test_step_lda_operand_is_data : (after (stateAt [0xA9#8, 0xE8#8, 0x00#8] 0#16)).map (fun s => (s.a, s.x)) =
    some (0xE8#8, 0x00#8) := by decide

/-- W3, the handler reading: the flags come from `X`, and the reserved bits stay. -/
theorem test_step_tax : after { stateAt [0xAA#8] 0#16 with a := 0x0A#8, x := 0x33#8, p := 0xFF#8 } =
    some { stateAt [0xAA#8] 1#16 with a := 0x0A#8, x := 0x0A#8, p := 0x7D#8 } := by decide

/-- V-T1: Zero becomes 1 from `X = 0`. -/
theorem test_step_tax_zero : after (stateAt [0xAA#8, 0x00#8] 0#16) =
    some { stateAt [0xAA#8, 0x00#8] 1#16 with p := 0x02#8 } := by decide

/-- W5: 0xFF wraps to 0x00 with Zero set and Negative clear, and no carry. -/
theorem test_step_inx_wraps : after { stateAt [0xE8#8] 0#16 with x := 0xFF#8, p := 0x80#8 } =
    some { stateAt [0xE8#8] 1#16 with x := 0x00#8, p := 0x02#8 } := by decide

/-- W5: 0x7F goes to 0x80 with Negative set and Zero clear. -/
theorem test_step_inx_sign : after { stateAt [0xE8#8] 0#16 with x := 0x7F#8, p := 0x02#8 } =
    some { stateAt [0xE8#8] 1#16 with x := 0x80#8, p := 0x80#8 } := by decide

/-- V-H2: HALT at the start; Zero stays 0 although `A` is 0, and the bytes after it are not fetched. -/
theorem test_step_halt : after (stateAt [0x00#8, 0xFF#8, 0xA9#8] 0#16) =
    some { stateAt [0x00#8, 0xFF#8, 0xA9#8] 1#16 with rs := .halted } := by decide

/-! ### Faults -/

/-- V-E1: the empty program, which is the state after reset. -/
theorem test_step_empty_program : after State.reset =
    some { State.reset with rs := .faulted, fr := some (.outOfBounds 0#16 .opcode) } := by decide

/-- V-E3: the operand is missing. -/
theorem test_step_missing_operand : after (stateAt [0xA9#8] 0#16) =
    some { stateAt [0xA9#8] 1#16 with rs := .faulted, fr := some (.outOfBounds 1#16 .operand) } := by decide

/-- V-E4. -/
theorem test_step_unknown_ff : after (stateAt [0xFF#8] 0#16) =
    some { stateAt [0xFF#8] 1#16 with rs := .faulted, fr := some (.unknownOpcode 0xFF#8 0#16) } := by decide

/-- V-E6: an illegal opcode at the last address is unknown, not out of bounds. -/
theorem test_step_unknown_at_last_address : (after (stateAt [0xA9#8, 0x01#8, 0x4C#8] 2#16)).map (fun s => (s.fr, s.pc)) =
    some (some (.unknownOpcode 0x4C#8 2#16), 3#16) := by decide

/-! ### The host's interface, and the word the host places -/

theorem test_launch_reads_back : (nextOf (launch [0xA9#8, 0x00#8, 0x00#8])).map
    (fun s => (s.mem.read? 0, s.mem.read? 1, s.mem.read? 3)) = some (some 0xA9#8, some 0x00#8, none) := by decide

theorem test_placed_word_runs : after (State.reset.withFetchWord 16 0xC0A9) =
    some { stateAt [0xA9#8, 0xC0#8] 2#16 with a := 0xC0#8, p := 0x80#8 } := by decide

/-- The last address an instruction can stand at is 0xFFFE. -/
theorem test_placed_word_at_last_address :
    (after (({ State.reset with pc := 0xFFFE#16 } : State).withFetchWord 8 0xE8)).map (fun s => (s.x, s.pc)) =
    some (0x01#8, 0xFFFF#16) := by decide

/-! ### Witnesses: each statement's hypotheses, met together -/

theorem witness_DecodeInvertsEncode : (Instr.lda 0xFF#8).wf = true ∧ decode [0xA9#8, 0xFF#8] = .ok (.lda 0xFF#8, []) :=
  ⟨rfl, rfl⟩

theorem witness_EncodedStreamsAreUnique : [Instr.lda 0x00#8, .halt].flatMap encode = [Instr.lda 0x00#8, .halt].flatMap encode :=
  rfl

theorem witness_DecodeRejectsExactly :
    decode [] = .error .emptyStream ∧ decode [0x01#8] = .error (.unknownOpcode 0x01#8) ∧
    decode [0xFF#8, 0x00#8] = .error (.unknownOpcode 0xFF#8) ∧ decode [0xA9#8] = .error .missingOperand :=
  ⟨rfl, rfl, rfl, rfl⟩

theorem witness_LengthComesFromOpcodeByte :
    decode [0xA9#8, 0x00#8] = .ok (.lda 0x00#8, []) ∧ decode [0x00#8, 0x00#8] = .ok (.halt, [0x00#8]) := ⟨rfl, rfl⟩

theorem witness_SourceLinesStandForTheirBytes :
    (SourceLine.lda 255).bytes? = some [0xA9#8, 0xFF#8] ∧ (SourceLine.byte 255).bytes? = some [0xFF#8] ∧
    (SourceLine.lda 256).bytes? = none ∧ (SourceLine.byte 256).bytes? = none := by decide

theorem witness_LaunchHoldsTheProgram :
    ([] : List Byte).length ≤ 0xFFFF ∧ (halts 0xFFFF).length ≤ 0xFFFF :=
  ⟨by decide, (halts_length 0xFFFF).le⟩

theorem witness_EveryProgramRunsToItsResult :
    ([0xA9#8] : List Byte).length ≤ 0xFFFF ∧ (halts 0xFFFF).length ≤ 0xFFFF :=
  ⟨by decide, (halts_length 0xFFFF).le⟩

theorem witness_TooLongProgramIsRefused :
    0xFFFF < (halts 0x10000).length ∧ ({ State.reset with rs := .halted } : State).rs ≠ .running := by
  rw [halts_length]
  decide

theorem witness_StartForgetsTheLastRun :
    ({ State.reset with a := 0xFF#8, rs := .faulted, fr := some (.outOfBounds 0#16 .opcode) } : State).rs ≠ .running ∧
    ([] : List Byte).length ≤ 0xFFFF := by decide

theorem witness_HostHasNoMoveDuringARun : State.reset.rs = .running := by decide

theorem witness_HostReadsTheResultAfterARun :
    ({ State.reset with rs := .halted } : State).rs ≠ .running ∧ ({ State.reset with rs := .faulted } : State).rs ≠ .running := by
  decide

theorem witness_SetZNPreservesReservedBits :
    (7 : Nat) ≠ 1 ∧ (0 : Nat) ≠ 1 ∧ (0 : Nat) ≠ 7 ∧ State.reset.p &&& 0x7D#8 = 0x00#8 := by decide

theorem witness_FetchReadsThenAdvances :
    (stateAt [0xE8#8] 1#16).mem.len.toNat ≤ (stateAt [0xE8#8] 1#16).pc.toNat ∧
    (stateAt [0xE8#8] 0#16).pc.toNat < (stateAt [0xE8#8] 0#16).mem.len.toNat := by decide

theorem witness_StepPastTheEndFaults :
    (stateAt [0xE8#8] 1#16).rs = .running ∧ (stateAt [0xE8#8] 1#16).mem.len.toNat ≤ (stateAt [0xE8#8] 1#16).pc.toNat := by
  decide

theorem witness_StepOnUnknownOpcodeFaults :
    (stateAt [0xE8#8, 0x01#8] 1#16).rs = .running ∧ (stateAt [0xE8#8, 0x01#8] 1#16).mem.read? 1 = some 0x01#8 ∧
    (0x01#8 : Byte) ≠ 0xA9#8 ∧ (0x01#8 : Byte) ≠ 0xAA#8 ∧ (0x01#8 : Byte) ≠ 0xE8#8 ∧ (0x01#8 : Byte) ≠ 0x00#8 := by
  decide

theorem witness_StepRunsTheDecodedInstruction :
    (stateAt [0xE8#8] 0#16).rs = .running ∧ decode (streamAt (stateAt [0xE8#8] 0#16)) = .ok (.inx, []) ∧
    Instr.inx.wf = true := ⟨rfl, rfl, rfl⟩

theorem witness_StepFaultsWhereTheDecoderRejects :
    decode (streamAt State.reset) = .error .emptyStream ∧
    decode (streamAt (stateAt [0x01#8] 0#16)) = .error (.unknownOpcode 0x01#8) ∧
    decode (streamAt (stateAt [0xA9#8] 0#16)) = .error .missingOperand := ⟨rfl, rfl, rfl⟩

theorem witness_FaultLeavesRegistersUnchanged :
    (stateAt [0xA9#8] 0#16).rs = .running ∧
    ∃ t, step (stateAt [0xA9#8] 0#16) = .next t ∧ t.rs = .faulted := ⟨rfl, _, rfl, rfl⟩

/-- A state for each case: the run over, a step that faults, a step that runs an instruction. -/
theorem witness_EveryStepAnswersANextState :
    ({ State.reset with rs := .halted } : State).rs ≠ .running ∧
    (State.reset.rs = .running ∧ stepInstr State.reset = none) ∧
    stepInstr (stateAt [0xE8#8] 0#16) = some .inx := by decide

theorem witness_FinishedRunsStayAsTheyAre : ({ State.reset with rs := .halted } : State).rs ≠ .running := by decide

theorem witness_PlacedTableWordRunsNext :
    State.reset.mem.wf = true ∧ ({ State.reset with pc := 0xFFFD#16 } : State).pc.toNat ≤ 0xFFFD ∧
    decodeTableWord 16 0xFFA9 = some (.lda 0xFF#8) := by decide

theorem witness_LdaStep :
    (stateAt [0xA9#8, 0x00#8] 0#16).rs = .running ∧ (stateAt [0xA9#8, 0x00#8] 0#16).mem.read? 0 = some 0xA9#8 ∧
    (stateAt [0xA9#8, 0x00#8] 0#16).mem.read? 1 = some 0x00#8 ∧
    (stateAt [0xA9#8] 0#16).mem.read? 0 = some 0xA9#8 ∧ (stateAt [0xA9#8] 0#16).mem.len.toNat = 1 := by decide

theorem witness_TaxStep :
    (stateAt [0xAA#8] 0#16).rs = .running ∧ (stateAt [0xAA#8] 0#16).mem.read? 0 = some 0xAA#8 := by decide

theorem witness_InxStep :
    (stateAt [0xE8#8] 0#16).rs = .running ∧ (stateAt [0xE8#8] 0#16).mem.read? 0 = some 0xE8#8 := by decide

theorem witness_HaltStep :
    (stateAt [0x00#8] 0#16).rs = .running ∧ (stateAt [0x00#8] 0#16).mem.read? 0 = some 0x00#8 := by decide

theorem witness_AccumulatorIsWrittenByLdaAndReadByTax :
    (after (stateAt [0xAA#8] 0#16)).isSome = true ∧ stepInstr (stateAt [0xAA#8] 0#16) = some .tax ∧
    stepInstr (stateAt [0xA9#8, 0x01#8] 0#16) = some (.lda 0x01#8) ∧
    (after (stateAt [0xA9#8, 0x01#8] 0#16)).map (fun t => t.a) ≠ some (stateAt [0xA9#8, 0x01#8] 0#16).a := by decide

theorem witness_IndexIsWrittenByTaxAndInxAndReadByInx :
    (after (stateAt [0xE8#8] 0#16)).map (fun t => t.x) ≠ some (stateAt [0xE8#8] 0#16).x ∧
    stepInstr (stateAt [0xE8#8] 0#16) = some .inx ∧ stepInstr (stateAt [0xAA#8] 0#16) = some .tax := by decide

theorem witness_FlagsFollowTheResultRegister :
    stepInstr (stateAt [0xA9#8, 0x00#8] 0#16) = some (.lda 0x00#8) ∧ stepInstr (stateAt [0xE8#8] 0#16) = some .inx ∧
    stepInstr (stateAt [0x00#8] 0#16) = some .halt ∧ stepInstr State.reset = none := by decide

theorem witness_NoInstructionReadsTheStatusByte :
    (nextOf (runFor 1 (stateAt [0xE8#8] 0#16))).isSome = true := by decide

theorem witness_PcAdvancesByTheBytesConsumed :
    stepInstr (stateAt [0xA9#8, 0x00#8] 0#16) = some (.lda 0x00#8) ∧ stepInstr (stateAt [0xAA#8] 0#16) = some .tax ∧
    stepInstr (stateAt [0xFF#8] 0#16) = none ∧ stepInstr (stateAt [0xFF#8] 1#16) = none := by decide

theorem witness_RunsEndByHaltOrFault :
    (after (stateAt [0x00#8] 0#16)).map (fun t => t.rs) = some .halted ∧
    (after State.reset).map (fun t => t.rs) = some .faulted := by decide

theorem witness_RunsNeverWriteTheProgram : (nextOf (runFor 1 (stateAt [0x00#8] 0#16))).isSome = true := by decide

/-- One step to HALT, the other program differing in a byte after it and in its length. -/
theorem witness_BytesPastTheEndAreNeverRead :
    ∃ t, runFor 1 (stateAt [0x00#8, 0xFF#8] 0#16) = .next t ∧ t.rs ≠ .faulted ∧
      t.pc.toNat ≤ (Memory.ofBytes [0x00#8]).len.toNat ∧
      ∀ addr, addr < t.pc.toNat → (Memory.ofBytes [0x00#8]).read? addr = (stateAt [0x00#8, 0xFF#8] 0#16).mem.read? addr := by
  refine ⟨_, rfl, by decide, by decide, ?_⟩
  intro addr h
  have h0 : addr = 0 := Nat.lt_one_iff.mp h
  subst h0
  rfl

/-- One step to an unknown opcode at the last address. -/
theorem witness_BytesPastTheEndAreNeverRead_unknown :
    ∃ t, runFor 1 (stateAt [0xFF#8] 0#16) = .next t ∧ t.fr = some (.unknownOpcode 0xFF#8 0#16) ∧
      t.pc.toNat ≤ (Memory.ofBytes [0xFF#8]).len.toNat :=
  ⟨_, rfl, rfl, by decide⟩

theorem witness_RunIsTheMeaningsInOrder :
    (stateAt [0xE8#8] 0#16).rs = .running ∧ (∀ i ∈ [Instr.inx], i ≠ .halt) ∧
    holdsAt (stateAt [0xE8#8] 0#16).mem 0 ([Instr.inx].flatMap encode) := by
  refine ⟨rfl, by decide, ?_⟩
  intro k b h
  match k, h with
  | 0, h => exact h

theorem witness_LaunchMeetsTheInvariant : (nextOf (launch [0xA9#8, 0x00#8])).isSome = true := by decide

theorem witness_StepKeepsTheInvariant :
    RunInv (stateAt [0x00#8] 1#16) ∧ (after (stateAt [0x00#8] 1#16)).isSome = true := by decide

theorem witness_StepKeepsTheEndAgreement :
    RunInv (stateAt [0x00#8] 0#16) ∧ endAgrees (stateAt [0x00#8] 0#16) ∧
    (after (stateAt [0x00#8] 0#16)).map (fun t => t.rs) = some .halted := by
  refine ⟨by decide, ⟨fun h => ?_, fun f h => ?_⟩, by decide⟩
  · cases h
  · cases h

theorem witness_StepKeepsFlagsDescribing :
    flagsDescribe ({ stateAt [0xE8#8] 0#16 with x := 0xFF#8, p := 0x80#8 } : State) ∧ flagsDescribe State.reset := by decide

theorem witness_CanonicalMemoriesThatReadAlikeAreEqual :
    (Memory.ofBytes [0x00#8, 0xE8#8]).wf = true ∧
    (((Memory.ofBytes [0x00#8, 0x00#8]).write 1 0xE8#8).wf = true) ∧
    (Memory.ofBytes [0x00#8, 0x00#8]).write 1 0xE8#8 = Memory.ofBytes [0x00#8, 0xE8#8] := by decide

theorem witness_EveryRunEndsWithinItsLength :
    (stateAt [0xE8#8] 1#16).pc.toNat ≤ (stateAt [0xE8#8] 1#16).mem.len.toNat ∧
    State.reset.pc.toNat ≤ State.reset.mem.len.toNat := by decide

end Sys2Proof.Tests
end

section
/-! PROOFS, family 10_state. The status byte's flag update bit by bit, what a step does by the instruction it runs, which
parts of the state a step does not look at, and the statements of 10_state. -/

namespace Sys2Proof.Machine

/-! ### The flag update as a byte -/

/-- The bits of the updated status byte (40_engine R68, R69). -/
theorem znByte_getLsbD (p v : Byte) {i : Nat} (hi : i < 8) :
    (znByte p v).getLsbD i =
      if i = 7 then v.getLsbD 7 else if i = 1 then decide (v = 0x00#8) else p.getLsbD i := by
  by_cases hv : v = 0x00#8
  · subst hv
    interval_cases i <;> simp [znByte]
  · interval_cases i <;> simp [znByte, hv]

/-- The flag unit's two bit writes are the byte form of the update. -/
@[simp] theorem withBit_withBit_eq_znByte (p v : Byte) :
    withBit (withBit p 1 (decide (v = 0x00#8))) 7 (bitOf v 7) = znByte p v := by
  apply BitVec.eq_of_getLsbD_eq
  intro i hi
  rw [znByte_getLsbD p v hi, withBit_getLsbD _ _ _ (by decide), withBit_getLsbD _ _ _ (by decide), bitOf]

/-- The update keeps the reserved bits. -/
@[simp] theorem znByte_and_reserved (p v : Byte) : znByte p v &&& 0x7D#8 = p &&& 0x7D#8 := by
  apply BitVec.eq_of_getLsbD_eq
  intro i hi
  rw [BitVec.getLsbD_and, BitVec.getLsbD_and, znByte_getLsbD p v hi]
  by_cases h7 : i = 7
  · simp [h7]
  · by_cases h1 : i = 1
    · simp [h1]
    · simp [h7, h1]

/-- Where the reserved bits are 0 the updated byte is the two flags alone. -/
theorem znByte_of_reserved_zero {p : Byte} (h : p &&& 0x7D#8 = 0x00#8) (v : Byte) : znByte p v = znByte 0x00#8 v := by
  simp [znByte, h]

/-! ### The meanings -/

@[simp] theorem exec_lda (imm : Byte) (s : State) : exec (.lda imm) s = .next (setZN imm (s.setA imm)) := rfl

@[simp] theorem exec_tax (s : State) : exec .tax s = .next (setZN s.a (s.setX s.a)) := rfl

@[simp] theorem exec_inx (s : State) : exec .inx s = .next (setZN (s.x + 1#8) (s.setX (s.x + 1#8))) := rfl

@[simp] theorem exec_halt (s : State) : exec .halt s = .next s.stop := rfl

/-- No meaning writes `PC`, `FR` or the program. -/
theorem exec_frame {i : Instr} {s t : State} (h : exec i s = .next t) : t.pc = s.pc ∧ t.fr = s.fr ∧ t.mem = s.mem := by
  cases i <;> cases h <;> exact ⟨rfl, rfl, rfl⟩

/-- Only HALT's meaning writes `RS`. -/
theorem exec_rs {i : Instr} {s t : State} (h : exec i s = .next t) : t.rs = if i = .halt then .halted else s.rs := by
  cases i <;> cases h <;> rfl

/-- A meaning leaves `P` or gives it the flags of some byte, so it keeps the reserved bits. -/
theorem exec_reserved {i : Instr} {s t : State} (h : exec i s = .next t) : t.p &&& 0x7D#8 = s.p &&& 0x7D#8 := by
  cases i <;> cases h <;> simp

/-! ### A step by the instruction it runs -/

/-- A step that runs `i` is `i`'s meaning from past its bytes, all of them in bounds. -/
theorem step_of_stepInstr_some {s t : State} {i : Instr} (hst : step s = .next t) (hi : stepInstr s = some i) :
    s.rs = .running ∧ s.pc.toNat + i.length ≤ s.mem.len.toNat ∧
      (s.skip i.length).pc.toNat = s.pc.toNat + i.length ∧ exec i (s.skip i.length) = .next t := by
  rcases step_cases hst with ⟨-, hn, -⟩ | ⟨-, hn, -⟩ | ⟨-, -, hn, -⟩ | ⟨-, hn, -⟩ | ⟨j, hr, hj, hop, himm, hpc, he⟩
  case inr.inr.inr.inr =>
    obtain rfl : j = i := Option.some.inj (hj.symm.trans hi)
    have hlt := Memory.lt_of_read?_eq_some hop
    refine ⟨hr, ?_, hpc, he⟩
    cases j with
    | lda imm => exact Memory.lt_of_read?_eq_some (himm imm rfl)
    | tax => exact hlt
    | inx => exact hlt
    | halt => exact hlt
  all_goals simp [hn] at hi

/-- A step that runs no instruction is not taken, or faults at a `PC` out of bounds, or faults one past a byte it read. -/
theorem step_of_stepInstr_none {s t : State} (hst : step s = .next t) (hi : stepInstr s = none) :
    (s.rs ≠ .running ∧ t = s) ∨
    (s.rs = .running ∧ s.mem.len.toNat ≤ s.pc.toNat ∧ ∃ f, t = raiseFault f s) ∨
    (s.rs = .running ∧ s.pc.toNat < s.mem.len.toNat ∧ (s.pc + 1#16).toNat = s.pc.toNat + 1 ∧
      ∃ f, t = raiseFault f s.advancePc) := by
  rcases step_cases hst with ⟨hr, -, ht⟩ | ⟨hr, -, hout, ht⟩ | ⟨b, hr, -, hop, -, ht⟩ | ⟨hr, -, hop, -, ht⟩ |
    ⟨j, -, hj, -⟩
  · exact .inl ⟨hr, ht⟩
  · exact .inr (.inl ⟨hr, hout, _, ht⟩)
  · exact .inr (.inr ⟨hr, Memory.lt_of_read?_eq_some hop, advancePc_toNat hop, _, ht⟩)
  · exact .inr (.inr ⟨hr, Memory.lt_of_read?_eq_some hop, advancePc_toNat hop, _, ht⟩)
  · simp [hi] at hj

/-- A step that runs no instruction leaves `A`, `X`, `P` and the program as they were (60_exceptions R82). -/
theorem step_none_frame {s t : State} (hst : step s = .next t) (hi : stepInstr s = none) :
    t.a = s.a ∧ t.x = s.x ∧ t.p = s.p ∧ t.mem = s.mem := by
  rcases step_of_stepInstr_none hst hi with ⟨-, rfl⟩ | ⟨-, -, f, rfl⟩ | ⟨-, -, -, f, rfl⟩ <;> exact ⟨rfl, rfl, rfl, rfl⟩

section
variable {s t : State} (hst : step s = .next t)
include hst

/-! The next state of a step that runs a given instruction. -/

theorem step_lda {imm : Byte} (hi : stepInstr s = some (.lda imm)) : t = setZN imm ((s.skip 2).setA imm) := by
  obtain ⟨-, -, -, he⟩ := step_of_stepInstr_some hst hi
  cases he
  rfl

theorem step_tax (hi : stepInstr s = some .tax) : t = setZN s.a ((s.skip 1).setX s.a) := by
  obtain ⟨-, -, -, he⟩ := step_of_stepInstr_some hst hi
  cases he
  rfl

theorem step_inx (hi : stepInstr s = some .inx) : t = setZN (s.x + 1#8) ((s.skip 1).setX (s.x + 1#8)) := by
  obtain ⟨-, -, -, he⟩ := step_of_stepInstr_some hst hi
  cases he
  rfl

theorem step_halt (hi : stepInstr s = some .halt) : t = (s.skip 1).stop := by
  obtain ⟨-, -, -, he⟩ := step_of_stepInstr_some hst hi
  cases he
  rfl

/-- A step that runs `i` moves `PC` past `i`'s bytes. -/
theorem step_pc_of_some {i : Instr} (hi : stepInstr s = some i) : t.pc.toNat = s.pc.toNat + i.length := by
  obtain ⟨-, -, hskip, he⟩ := step_of_stepInstr_some hst hi
  obtain ⟨hpc, -, -⟩ := exec_frame he
  rw [hpc, hskip]

/-- Every step keeps the reserved bits of `P`. -/
theorem step_reserved : t.p &&& 0x7D#8 = s.p &&& 0x7D#8 := by
  cases hi : stepInstr s with
  | none =>
    obtain ⟨-, -, hp, -⟩ := step_none_frame hst hi
    rw [hp]
  | some i =>
    obtain ⟨-, -, -, he⟩ := step_of_stepInstr_some hst hi
    rw [exec_reserved he, State.skip_p]

end

/-! ### What a fetch does not look at -/

/-- The update `f` touches nothing a fetch reads or writes. -/
structure FetchIgnores (f : State → State) : Prop where
  rs : ∀ s, (f s).rs = s.rs
  pc : ∀ s, (f s).pc = s.pc
  mem : ∀ s, (f s).mem = s.mem
  advancePc : ∀ s, f s.advancePc = (f s).advancePc
  raiseFault : ∀ r s, f (raiseFault r s) = Machine.raiseFault r (f s)

theorem fetchIgnores_setA (v : Byte) : FetchIgnores (State.setA · v) := ⟨fun _ => rfl, fun _ => rfl, fun _ => rfl,
  fun _ => rfl, fun _ _ => rfl⟩

theorem fetchIgnores_setX (v : Byte) : FetchIgnores (State.setX · v) := ⟨fun _ => rfl, fun _ => rfl, fun _ => rfl,
  fun _ => rfl, fun _ _ => rfl⟩

theorem fetchIgnores_setP (v : Byte) : FetchIgnores (State.setP · v) := ⟨fun _ => rfl, fun _ => rfl, fun _ => rfl,
  fun _ => rfl, fun _ _ => rfl⟩

/-- A fetch's result with `f` applied to its state. -/
def Fetched.mapState {α : Type} (f : State → State) : Fetched α → Fetched α
  | .got v s => .got v (f s)
  | .ended s => .ended (f s)

section
variable {f : State → State} (hf : FetchIgnores f)
include hf

theorem fetchByte_map (phase : FetchPhase) (s : State) : fetchByte phase (f s) = (fetchByte phase s).mapState f := by
  have hread : (f s).mem.read? (f s).pc.toNat = s.mem.read? s.pc.toNat := by rw [hf.mem, hf.pc]
  cases h : s.mem.read? s.pc.toNat with
  | none => rw [fetchByte_out h, fetchByte_out (hread.trans h), Fetched.mapState, hf.raiseFault, hf.pc]
  | some v => rw [fetchByte_in h, fetchByte_in (hread.trans h), Fetched.mapState, hf.advancePc]

theorem fetchRunning_map (s : State) : fetchRunning (f s) = (fetchRunning s).mapState f := by
  unfold fetchRunning fetchOpcode fetchOperand
  rw [fetchByte_map hf, hf.pc]
  cases fetchByte .opcode s with
  | ended u => rfl
  | got op u =>
    simp only [Fetched.mapState, fetchByte_map hf]
    cases Opcode.ofByte? op with
    | none => simp [hf.raiseFault]
    | some o =>
      cases o with
      | lda => cases fetchByte .operand u <;> rfl
      | tax => rfl
      | inx => rfl
      | halt => rfl

/-- A fetch commutes with an update it does not look at. -/
theorem fetchInstr_map (s : State) : fetchInstr (f s) = (fetchInstr s).mapState f := by
  by_cases hr : s.rs = .running
  · rw [fetchInstr_running hr, fetchInstr_running ((hf.rs s).trans hr), fetchRunning_map hf]
  · rw [fetchInstr_done hr, fetchInstr_done (fun h => hr ((hf.rs s).symm.trans h)), Fetched.mapState]

/-- A step taken after the update ends the same way but for the update, or runs the same instruction's meaning on the
updated state. -/
theorem step_map {s t : State} (hst : step s = .next t) :
    (stepInstr s = none ∧ step (f s) = .next (f t)) ∨
    (∃ i u, stepInstr s = some i ∧ exec i u = .next t ∧ step (f s) = exec i (f u)) := by
  have hmap := fetchInstr_map hf s
  cases h : fetchInstr s with
  | ended u =>
    rw [h] at hmap
    rw [step_of_ended h] at hst
    cases hst
    exact .inl ⟨by simp [stepInstr, h], step_of_ended hmap⟩
  | got i u =>
    rw [h] at hmap
    exact .inr ⟨i, u, by simp [stepInstr, h], (step_of_got h).symm.trans hst, step_of_got hmap⟩

end

/-- Every meaning but TAX's goes the same way, but for `A`, whatever `A` holds. -/
theorem exec_setA {i : Instr} {s t : State} (hi : i ≠ .tax) (h : exec i s = .next t) (v : Byte) :
    ∃ v', exec i (s.setA v) = .next (t.setA v') := by
  cases i with
  | lda imm => cases h; exact ⟨imm, rfl⟩
  | tax => exact absurd rfl hi
  | inx => cases h; exact ⟨v, rfl⟩
  | halt => cases h; exact ⟨v, rfl⟩

/-- Every meaning but INX's goes the same way, but for `X`, whatever `X` holds. -/
theorem exec_setX {i : Instr} {s t : State} (hi : i ≠ .inx) (h : exec i s = .next t) (v : Byte) :
    ∃ v', exec i (s.setX v) = .next (t.setX v') := by
  cases i with
  | lda imm => cases h; exact ⟨v, rfl⟩
  | tax => cases h; exact ⟨s.a, rfl⟩
  | inx => exact absurd rfl hi
  | halt => cases h; exact ⟨v, rfl⟩

/-- Every meaning goes the same way, but for `P`, whatever `P` holds. -/
theorem exec_setP {i : Instr} {s t : State} (h : exec i s = .next t) (q : Byte) :
    ∃ q', exec i (s.setP q) = .next (t.setP q') := by
  cases i <;> cases h <;> exact ⟨_, rfl⟩

/-- A step goes the same way, but for `P`, whatever status byte it starts with, and keeps that byte's reserved bits. -/
theorem step_setP {s t : State} (hst : step s = .next t) (q : Byte) :
    ∃ q', step (s.setP q) = .next (t.setP q') ∧ q' &&& 0x7D#8 = q &&& 0x7D#8 := by
  have hstep : ∃ q', step (s.setP q) = .next (t.setP q') := by
    rcases step_map (fetchIgnores_setP q) hst with ⟨-, h⟩ | ⟨i, u, -, he, h⟩
    · exact ⟨q, h⟩
    · obtain ⟨q', he'⟩ := exec_setP he q
      exact ⟨q', h.trans he'⟩
  obtain ⟨q', h⟩ := hstep
  exact ⟨q', h, step_reserved h⟩

/-! ### Runs -/

theorem runFor_succ_eq_next {k : Nat} {s t : State} :
    runFor (k + 1) s = .next t ↔ ∃ u, step s = .next u ∧ runFor k u = .next t := by
  rw [runFor]
  cases step s <;> simp

/-! ### The invariants at the start of a run -/

/-- A canonical program's start state meets the three invariants. -/
theorem startState_invariants {m : Memory} (h : m.wf = true) :
    RunInv (startState m) ∧ endAgrees (startState m) ∧ flagsDescribe (startState m) := by
  exact ⟨⟨h, Nat.zero_le _, by simp, by simp⟩, ⟨by simp, by simp⟩, .inl rfl⟩

theorem launch_eq_next {program : List Byte} {s : State} (h : launch program = .next s) :
    programFits program = true ∧ s = startState (Memory.ofBytes program) := by
  by_cases hfits : programFits program = true
  · simp only [launch, hfits, if_true, Host.Outcome.next.injEq] at h
    exact ⟨hfits, h.symm⟩
  · simp [launch, hfits] at h

/-- The reserved bits are 0 in a status byte that describes a register. -/
theorem reserved_of_flagsDescribe {s : State} (h : flagsDescribe s) : s.p &&& 0x7D#8 = 0x00#8 := by
  rcases h with h | h | h <;> simp [h]

/-! ### The statements -/

/-- Settles O45: a step that runs an instruction ends in bounds and not Faulted, one that faults records it, and the reserved
bits and the program stay. -/
theorem stepKeepsTheInvariant : Obligations.StepKeepsTheInvariant := by
  intro s t hinv hst
  obtain ⟨hwf, hpc, hres, hfr⟩ := hinv
  have hres' : t.p &&& reservedMask = 0x00#8 := (step_reserved hst).trans hres
  cases hi : stepInstr s with
  | none =>
    rcases step_of_stepInstr_none hst hi with ⟨-, rfl⟩ | ⟨-, -, f, rfl⟩ | ⟨-, hlt, hadv, f, rfl⟩
    · exact ⟨hwf, hpc, hres, hfr⟩
    · exact ⟨hwf, hpc, hres', by simp⟩
    · refine ⟨hwf, ?_, hres', by simp⟩
      simp only [raiseFault_pc, State.advancePc_pc, raiseFault_mem, State.advancePc_mem]
      omega
  | some i =>
    obtain ⟨hr, hle, hskip, he⟩ := step_of_stepInstr_some hst hi
    obtain ⟨hpc', hfr', hmem'⟩ := exec_frame he
    have hrs' := exec_rs he
    refine ⟨?_, ?_, hres', ?_⟩
    · rw [hmem']
      exact hwf
    · rw [hpc', hmem', hskip]
      exact hle
    · rw [hfr', hrs', State.skip_fr, State.skip_rs, hfr, hr]
      by_cases hh : i = .halt <;> simp [hh]

/-- Settles O34, by what each instruction writes and by `exec_setA`. -/
theorem accumulatorIsWrittenByLdaAndReadByTax : Obligations.AccumulatorIsWrittenByLdaAndReadByTax := by
  intro s t hst
  refine ⟨fun imm hi => by simp [step_lda hst hi], fun hi => by simp [step_tax hst hi], fun hne => ?_, fun hi v => ?_⟩
  · cases hi : stepInstr s with
    | none =>
      obtain ⟨ha, -, -, -⟩ := step_none_frame hst hi
      exact absurd ha hne
    | some i =>
      cases i with
      | lda imm => exact ⟨imm, rfl⟩
      | tax => exact absurd (by simp [step_tax hst hi]) hne
      | inx => exact absurd (by simp [step_inx hst hi]) hne
      | halt => exact absurd (by simp [step_halt hst hi]) hne
  · rcases step_map (fetchIgnores_setA v) hst with ⟨-, h⟩ | ⟨i, u, hsome, he, h⟩
    · exact ⟨v, h⟩
    · obtain ⟨v', he'⟩ := exec_setA (fun htax => hi (htax ▸ hsome)) he v
      exact ⟨v', h.trans he'⟩

/-- Settles O35, by what each instruction writes and by `exec_setX`. -/
theorem indexIsWrittenByTaxAndInxAndReadByInx : Obligations.IndexIsWrittenByTaxAndInxAndReadByInx := by
  intro s t hst
  refine ⟨fun hi => by simp [step_tax hst hi], fun hi => by simp [step_inx hst hi], fun hne => ?_, fun hi v => ?_⟩
  · cases hi : stepInstr s with
    | none =>
      obtain ⟨-, hx, -, -⟩ := step_none_frame hst hi
      exact absurd hx hne
    | some i =>
      cases i with
      | lda imm => exact absurd (by simp [step_lda hst hi]) hne
      | tax => exact .inl rfl
      | inx => exact .inr rfl
      | halt => exact absurd (by simp [step_halt hst hi]) hne
  · rcases step_map (fetchIgnores_setX v) hst with ⟨-, h⟩ | ⟨i, u, hsome, he, h⟩
    · exact ⟨v, h⟩
    · obtain ⟨v', he'⟩ := exec_setX (fun hinx => hi (hinx ▸ hsome)) he v
      exact ⟨v', h.trans he'⟩

/-- Settles O36, instruction by instruction. -/
theorem flagsFollowTheResultRegister : Obligations.FlagsFollowTheResultRegister := by
  intro s t hst
  refine ⟨fun imm hi => by simp [step_lda hst hi], ?_, ?_, step_reserved hst⟩
  · rintro (hi | hi)
    · simp [step_tax hst hi]
    · simp [step_inx hst hi]
  · rintro (hi | hi)
    · simp [step_halt hst hi]
    · obtain ⟨-, -, hp, -⟩ := step_none_frame hst hi
      exact hp

/-- Settles O37, by induction on the number of steps. -/
theorem noInstructionReadsTheStatusByte : Obligations.NoInstructionReadsTheStatusByte := by
  intro k
  induction k with
  | zero =>
    intro s t q h
    cases h
    exact ⟨q, rfl, rfl⟩
  | succ k ih =>
    intro s t q h
    obtain ⟨u, hstep, hrun⟩ := runFor_succ_eq_next.mp h
    obtain ⟨q1, hstep', hq1⟩ := step_setP hstep q
    obtain ⟨q2, hrun', hq2⟩ := ih u t q1 hrun
    exact ⟨q2, runFor_succ_eq_next.mpr ⟨_, hstep', hrun'⟩, hq2.trans hq1⟩

/-- Settles O38, by the instruction's length or by the kind of fault. -/
theorem pcAdvancesByTheBytesConsumed : Obligations.PcAdvancesByTheBytesConsumed := by
  intro s t hst
  refine ⟨fun imm hi => step_pc_of_some hst hi, fun i hi hnot => ?_, fun hi => ?_⟩
  · rw [step_pc_of_some hst hi]
    cases i with
    | lda imm => exact absurd rfl (hnot imm)
    | tax => rfl
    | inx => rfl
    | halt => rfl
  · rcases step_of_stepInstr_none hst hi with ⟨hr, rfl⟩ | ⟨-, hout, f, rfl⟩ | ⟨hr, hlt, hadv, f, rfl⟩
    · simp [hr]
    · simp [Nat.not_lt.mpr hout]
    · simp [hr, hlt, hadv]

/-- Settles O39: of the steps that run an instruction only HALT's writes `RS`. -/
theorem runsEndByHaltOrFault : Obligations.RunsEndByHaltOrFault := by
  intro s t hst hne
  cases hi : stepInstr s with
  | none =>
    rcases step_of_stepInstr_none hst hi with ⟨-, rfl⟩ | ⟨hr, -, f, rfl⟩ | ⟨hr, -, -, f, rfl⟩
    · exact absurd rfl hne
    · exact ⟨hr, .inr ⟨rfl, rfl, rfl⟩⟩
    · exact ⟨hr, .inr ⟨rfl, rfl, rfl⟩⟩
  | some i =>
    obtain ⟨hr, -, -, he⟩ := step_of_stepInstr_some hst hi
    have hrs := exec_rs he
    obtain ⟨-, hfr, -⟩ := exec_frame he
    by_cases hh : i = .halt
    · subst hh
      exact ⟨hr, .inl ⟨rfl, hrs, hfr⟩⟩
    · rw [if_neg hh] at hrs
      exact absurd hrs hne

/-- Settles O44: a launch gives the start state of a program in canonical form. -/
theorem launchMeetsTheInvariant : Obligations.LaunchMeetsTheInvariant := by
  intro program s h
  obtain ⟨hfits, rfl⟩ := launch_eq_next h
  exact startState_invariants (Memory.ofBytes_wf hfits)

/-- Settles O47: an instruction that writes `P` gives it the flags of the register it wrote. -/
theorem stepKeepsFlagsDescribing : Obligations.StepKeepsFlagsDescribing := by
  intro s t hs hst
  have hzn := znByte_of_reserved_zero (reserved_of_flagsDescribe hs)
  cases hi : stepInstr s with
  | none =>
    obtain ⟨ha, hx, hp, -⟩ := step_none_frame hst hi
    simpa only [flagsDescribe, ha, hx, hp] using hs
  | some i =>
    cases i with
    | lda imm => exact .inr (.inl (by simp [step_lda hst hi, hzn]))
    | tax => exact .inr (.inr (by simp [step_tax hst hi, hzn]))
    | inx => exact .inr (.inr (by simp [step_inx hst hi, hzn]))
    | halt => simpa [flagsDescribe, step_halt hst hi] using hs

/-- Settles O7: the values of the reset state, and no address in bounds of the empty program. -/
theorem resetIsTheStartState : Obligations.ResetIsTheStartState :=
  ⟨rfl, rfl, rfl, rfl, rfl, rfl, rfl, rfl, fun addr => Memory.read?_eq_none.mpr (Nat.zero_le addr)⟩

/-- Settles O43: the state after reset is the start state of the empty program. -/
theorem resetMeetsTheInvariant : Obligations.ResetMeetsTheInvariant :=
  startState_invariants (m := State.reset.mem) rfl

end Sys2Proof.Machine
end

section
/-! PROOFS, family 20_memory. What the decoder answers, what a program laid out in memory reads as, the canonical form's
uniqueness, a table word placed for the next step, and the statements of 20_memory. -/

namespace Sys2Proof

open Machine (legalOpcode)

/-! ### What the decoder answers -/

theorem decode_illegal {b : Byte} (h : ¬ legalOpcode b) (rest : List Byte) :
    decode (b :: rest) = .error (.unknownOpcode b) := by
  simp [decode, Opcode.ofByte?_eq_none.mpr h]

/-- Everything the decoder can do: nothing to read, an illegal opcode, an LDA opcode alone, or an instruction whose
encoding the stream starts with. -/
theorem decode_cases (bs : List Byte) :
    (bs = [] ∧ decode bs = .error .emptyStream) ∨
    (∃ b rest, bs = b :: rest ∧ ¬ legalOpcode b ∧ decode bs = .error (.unknownOpcode b)) ∨
    (bs = [0xA9#8] ∧ decode bs = .error .missingOperand) ∨
    (∃ i rest, bs = encode i ++ rest ∧ decode bs = .ok (i, rest)) := by
  cases bs with
  | nil => exact .inl ⟨rfl, rfl⟩
  | cons b rest =>
    cases ho : Opcode.ofByte? b with
    | none =>
      have hb := Opcode.ofByte?_eq_none.mp ho
      exact .inr (.inl ⟨b, rest, rfl, hb, decode_illegal hb rest⟩)
    | some o =>
      obtain rfl := Opcode.ofByte?_eq_some.mp ho
      cases o with
      | lda =>
        cases rest with
        | nil => exact .inr (.inr (.inl ⟨rfl, rfl⟩))
        | cons v rest => exact .inr (.inr (.inr ⟨.lda v, rest, rfl, rfl⟩))
      | tax => exact .inr (.inr (.inr ⟨.tax, rest, rfl, rfl⟩))
      | inx => exact .inr (.inr (.inr ⟨.inx, rest, rfl, rfl⟩))
      | halt => exact .inr (.inr (.inr ⟨.halt, rest, rfl, rfl⟩))

/-- What the decoder reads is the instruction's own encoding. -/
theorem eq_encode_append_of_decode {bs rest : List Byte} {i : Instr} (h : decode bs = .ok (i, rest)) :
    bs = encode i ++ rest := by
  rcases decode_cases bs with ⟨-, hd⟩ | ⟨b, r, -, -, hd⟩ | ⟨-, hd⟩ | ⟨j, r, hbs, hd⟩
  case inr.inr.inr =>
    rw [hd] at h
    cases h
    exact hbs
  all_goals simp [hd] at h

theorem decode_eq_emptyStream {bs : List Byte} : decode bs = .error .emptyStream ↔ bs = [] := by
  constructor
  · intro h
    rcases decode_cases bs with ⟨hbs, -⟩ | ⟨b, r, -, -, hd⟩ | ⟨-, hd⟩ | ⟨j, r, -, hd⟩
    case inl => exact hbs
    all_goals simp [hd] at h
  · rintro rfl
    rfl

theorem decode_eq_unknownOpcode {bs : List Byte} {b : Byte} :
    decode bs = .error (.unknownOpcode b) ↔ bs.head? = some b ∧ ¬ legalOpcode b := by
  constructor
  · intro h
    rcases decode_cases bs with ⟨-, hd⟩ | ⟨c, r, rfl, hc, hd⟩ | ⟨-, hd⟩ | ⟨j, r, -, hd⟩
    case inr.inl =>
      rw [hd] at h
      cases h
      exact ⟨rfl, hc⟩
    all_goals simp [hd] at h
  · rintro ⟨hhead, hb⟩
    obtain ⟨rest, rfl⟩ := List.head?_eq_some_iff.mp hhead
    exact decode_illegal hb rest

theorem decode_eq_missingOperand {bs : List Byte} : decode bs = .error .missingOperand ↔ bs = [0xA9#8] := by
  constructor
  · intro h
    rcases decode_cases bs with ⟨-, hd⟩ | ⟨b, r, -, -, hd⟩ | ⟨hbs, -⟩ | ⟨j, r, -, hd⟩
    case inr.inr.inl => exact hbs
    all_goals simp [hd] at h
  · rintro rfl
    rfl

theorem decodeTableWord_eq_some {nbits w : Nat} {i : Instr} (h : decodeTableWord nbits w = some i) :
    ∃ rest, decode [(tableWordBytes nbits w).1, (tableWordBytes nbits w).2] = .ok (i, rest) := by
  unfold decodeTableWord at h
  split at h
  · rename_i rest hd
    cases h
    exact ⟨rest, hd⟩
  · cases h

/-- Settles O3, by what the decoder answers in each case and by a count of the 256 bytes. -/
theorem decodeRejectsExactly : Obligations.DecodeRejectsExactly :=
  ⟨fun _ => decode_eq_emptyStream, fun _ _ => decode_eq_unknownOpcode, fun _ => decode_eq_missingOperand,
    by decide +kernel⟩

namespace Machine

/-! ### A program laid out in memory -/

theorem Memory.ofBytes_len_toNat {program : List Byte} (h : program.length ≤ 0xFFFF) :
    (Memory.ofBytes program).len.toNat = program.length := by
  simp only [Memory.ofBytes, BitVec.toNat_ofNat]
  omega

/-- Byte `i` of the program is at address `i`, and nothing is beyond them (20_memory R35, R36). -/
theorem Memory.read?_ofBytes {program : List Byte} (h : program.length ≤ 0xFFFF) (addr : Nat) :
    (Memory.ofBytes program).read? addr = program[addr]? := by
  have hlen := Memory.ofBytes_len_toNat h
  by_cases hin : addr < program.length
  · have hcell : cellAt (Memory.ofBytes program).cells addr = program[addr] := by
      simpa [Memory.ofBytes, hin] using cellAt_cellsFrom program 0 addr
    rw [Memory.read?_of_lt (hlen ▸ hin), hcell, List.getElem?_eq_getElem hin]
  · have hout := Nat.le_of_not_lt hin
    rw [Memory.read?_eq_none.mpr (hlen ▸ hout), List.getElem?_eq_none hout]

theorem launch_of_fits {program : List Byte} (h : program.length ≤ 0xFFFF) :
    launch program = .next (startState (Memory.ofBytes program)) := by
  have hfits : programFits program = true := decide_eq_true h
  simp [launch, hfits]

/-- Settles O8, by the start state's fields and by what the laid out program reads as. -/
theorem launchHoldsTheProgram : Obligations.LaunchHoldsTheProgram := fun _ h =>
  ⟨_, launch_of_fits h, rfl, rfl, rfl, rfl, rfl, rfl, Memory.ofBytes_len_toNat h, Memory.read?_ofBytes h⟩

/-! ### The program over a run -/

/-- No step writes the program (20_memory R39). -/
theorem step_mem {s t : State} (hst : step s = .next t) : t.mem = s.mem := by
  cases hi : stepInstr s with
  | none =>
    obtain ⟨-, -, -, hmem⟩ := step_none_frame hst hi
    exact hmem
  | some i =>
    obtain ⟨-, -, -, he⟩ := step_of_stepInstr_some hst hi
    obtain ⟨-, -, hmem⟩ := exec_frame he
    exact hmem

theorem runFor_mem {k : Nat} {s t : State} (h : runFor k s = .next t) : t.mem = s.mem := by
  induction k generalizing s with
  | zero => cases h; rfl
  | succ k ih =>
    obtain ⟨u, hstep, hrun⟩ := runFor_succ_eq_next.mp h
    exact (ih hrun).trans (step_mem hstep)

/-- Settles O40: the program memory itself is the same data after any number of steps. -/
theorem runsNeverWriteTheProgram : Obligations.RunsNeverWriteTheProgram := by
  intro k s t h
  rw [runFor_mem h]
  exact ⟨rfl, fun _ => rfl⟩

/-! ### The canonical form is unique -/

theorem cellsWf_cons {lo hi k : Nat} {b : Byte} {cs : List Host.Cell} :
    cellsWf lo hi ((k, b) :: cs) = true ↔
      lo ≤ k ∧ k < hi ∧ b ≠ Config.unlistedByte ∧ cellsWf (k + 1) hi cs = true := by
  simp [cellsWf, and_assoc]

/-- The first address a canonical list holds is the least one that reads as another byte than an unlisted address. -/
theorem head_le_of_cellAt_ne {lo hi k addr : Nat} {b : Byte} {cs : List Host.Cell}
    (h : cellsWf lo hi ((k, b) :: cs) = true) (hne : cellAt ((k, b) :: cs) addr ≠ Config.unlistedByte) : k ≤ addr := by
  obtain ⟨-, hk, hb, hcs⟩ := cellsWf_cons.mp h
  by_contra hlt
  exact hne (cellAt_below (Nat.lt_of_not_le hlt) (cellsWf_cons.mpr ⟨le_refl k, hk, hb, hcs⟩))

/-- Canonical lists that read alike between their bounds are the same list. -/
theorem cells_ext {lo hi : Nat} {cs ds : List Host.Cell} (hcs : cellsWf lo hi cs = true) (hds : cellsWf lo hi ds = true)
    (hread : ∀ addr, addr < hi → cellAt cs addr = cellAt ds addr) : cs = ds := by
  induction cs generalizing lo ds with
  | nil =>
    cases ds with
    | nil => rfl
    | cons d ds =>
      obtain ⟨k, b⟩ := d
      obtain ⟨-, hk, hb, -⟩ := cellsWf_cons.mp hds
      exact absurd (by simpa [cellAt] using (hread k hk).symm) hb
  | cons c cs ih =>
    obtain ⟨k, b⟩ := c
    obtain ⟨-, hk, hb, hcs'⟩ := cellsWf_cons.mp hcs
    cases ds with
    | nil => exact absurd (by simpa [cellAt] using hread k hk) hb
    | cons d ds =>
      obtain ⟨k', b'⟩ := d
      obtain ⟨-, hk', hb', hds'⟩ := cellsWf_cons.mp hds
      have hle : k ≤ k' := head_le_of_cellAt_ne hcs (by rw [hread k' hk']; simpa [cellAt] using hb')
      have hge : k' ≤ k := head_le_of_cellAt_ne hds (by rw [← hread k hk]; simpa [cellAt] using hb)
      obtain rfl : k = k' := le_antisymm hle hge
      obtain rfl : b = b' := by simpa [cellAt] using hread k hk
      have htail : ∀ addr, addr < hi → cellAt cs addr = cellAt ds addr := by
        intro addr haddr
        by_cases hlow : addr < k + 1
        · rw [cellAt_below hlow hcs', cellAt_below hlow hds']
        · have hne : k ≠ addr := by omega
          simpa [cellAt, hne] using hread addr haddr
      rw [ih hcs' hds' htail]

/-- Memories that read alike are equally long: the length is the least address that reads as nothing. -/
theorem Memory.len_eq_of_read?_eq {m m' : Memory} (h : ∀ addr, m.read? addr = m'.read? addr) : m.len = m'.len := by
  have hle : ∀ addr, m.len.toNat ≤ addr ↔ m'.len.toNat ≤ addr := fun addr => by
    rw [← Memory.read?_eq_none, ← Memory.read?_eq_none, h]
  exact BitVec.eq_of_toNat_eq (le_antisymm ((hle _).mpr (le_refl _)) ((hle _).mp (le_refl _)))

/-- Settles O48: the lengths are equal, and the cell lists by induction on their cells. -/
theorem canonicalMemoriesThatReadAlikeAreEqual : Obligations.CanonicalMemoriesThatReadAlikeAreEqual := by
  intro m m' hm hm' hread
  have hlen := Memory.len_eq_of_read?_eq hread
  have hcells : m.cells = m'.cells := by
    refine cells_ext hm (by rw [hlen]; exact hm') fun addr haddr => ?_
    have h := hread addr
    rw [Memory.read?_of_lt haddr, Memory.read?_of_lt (hlen ▸ haddr)] at h
    exact Option.some.inj h
  cases m
  cases m'
  cases hlen
  cases hcells
  rfl

/-! ### The step at an instruction the program holds -/

theorem holdsAt_append_left {m : Memory} {addr : Nat} {bs cs : List Byte} (h : holdsAt m addr (bs ++ cs)) :
    holdsAt m addr bs := by
  intro k b hk
  obtain ⟨hlt, -⟩ := List.getElem?_eq_some_iff.mp hk
  exact h k b ((List.getElem?_append_left hlt).trans hk)

theorem holdsAt_pair {m : Memory} {addr : Nat} {b v : Byte} (hb : m.read? addr = some b)
    (hv : m.read? (addr + 1) = some v) : holdsAt m addr [b, v] := by
  intro k c hk
  match k, hk with
  | 0, hk => cases hk; exact hb
  | 1, hk => cases hk; exact hv

/-- Where the program holds the encoding of `i` at `PC`, a running fetch gives `i` and moves `PC` past its bytes
(40_engine R62 to R65). -/
theorem fetchRunning_of_holdsAt {s : State} {i : Instr} (h : holdsAt s.mem s.pc.toNat (encode i)) :
    fetchRunning s = .got i (s.skip i.length) := by
  have hop : s.mem.read? s.pc.toNat = some i.opcode.byte := h 0 _ (by cases i <;> rfl)
  unfold fetchRunning fetchOpcode fetchOperand
  rw [fetchByte_in hop]
  cases i with
  | lda imm =>
    have hpc : s.advancePc.pc.toNat = s.pc.toNat + 1 := advancePc_toNat hop
    have hread : s.advancePc.mem.read? s.advancePc.pc.toNat = some imm := by
      rw [hpc]
      exact h 1 imm rfl
    have hskip : s.skip (Instr.lda imm).length = s.advancePc.advancePc := by
      simp only [State.skip, State.advancePc, BitVec.add_assoc]
      rfl
    have ho : Opcode.ofByte? (Instr.lda imm).opcode.byte = some .lda := rfl
    simp only [ho, fetchByte_in hread, hskip]
  | tax => rfl
  | inx => rfl
  | halt => rfl

theorem step_of_holdsAt {s : State} {i : Instr} (hr : s.rs = .running) (h : holdsAt s.mem s.pc.toNat (encode i)) :
    step s = exec i (s.skip i.length) :=
  step_of_got ((fetchInstr_running hr).trans (fetchRunning_of_holdsAt h))

/-! ### A table word placed for the next step -/

theorem Memory.read?_growTo {m : Memory} {addr : Nat} (n : Nat) (h : addr < m.len.toNat) :
    (m.growTo n).read? addr = m.read? addr := by
  have hgrown : addr < (m.growTo n).len.toNat := by
    rw [Memory.growTo_len_toNat]
    exact lt_max_of_lt_left h
  rw [Memory.read?_of_lt h, Memory.read?_of_lt hgrown, Memory.growTo_cells]

/-- The program with two bytes placed at `addr` and `addr + 1`, made long enough to hold them. -/
def Memory.placePair (m : Memory) (addr : Nat) (b v : Byte) : Memory :=
  ((m.growTo (addr + 2)).write addr b).write (addr + 1) v

theorem Memory.placePair_wf {m : Memory} (h : m.wf = true) (addr : Nat) (b v : Byte) : (m.placePair addr b v).wf = true :=
  Memory.write_wf _ _ (Memory.write_wf _ _ (Memory.growTo_wf _ h))

/-- Two bytes placed where a program can hold both are held there. -/
theorem Memory.holdsAt_placePair {m : Memory} (h : m.wf = true) {addr : Nat} (haddr : addr ≤ 0xFFFD) (b v : Byte) :
    holdsAt (m.placePair addr b v) addr [b, v] := by
  have hlen : addr + 2 ≤ (m.growTo (addr + 2)).len.toNat := by
    rw [Memory.growTo_len_toNat]
    omega
  have hwf := Memory.growTo_wf (addr + 2) h
  refine holdsAt_pair ?_ ?_
  · exact (Memory.read?_write_other (Nat.ne_of_lt addr.lt_succ_self)).trans (Memory.read?_write_same hwf (by omega))
  · refine Memory.read?_write_same (Memory.write_wf _ _ hwf) ?_
    rw [Memory.write_len]
    omega

/-- Placing two bytes leaves every other byte of the program. -/
theorem Memory.read?_placePair_other {m : Memory} {addr other : Nat} (b v : Byte) (hin : other < m.len.toNat)
    (h0 : other ≠ addr) (h1 : other ≠ addr + 1) : (m.placePair addr b v).read? other = m.read? other := by
  rw [Memory.placePair, Memory.read?_write_other h1, Memory.read?_write_other h0, Memory.read?_growTo _ hin]

theorem State.withFetchWord_mem (s : State) (nbits w : Nat) : (s.withFetchWord nbits w).mem =
    s.mem.placePair s.pc.toNat (tableWordBytes nbits w).1 (tableWordBytes nbits w).2 := rfl

/-- A table word that decodes to `i` is placed with `i`'s encoding at `PC`. -/
theorem holdsAt_withFetchWord {s : State} {nbits w : Nat} {i : Instr} (hwf : s.mem.wf = true) (hpc : s.pc.toNat ≤ 0xFFFD)
    (hd : decodeTableWord nbits w = some i) :
    holdsAt (s.withFetchWord nbits w).mem s.pc.toNat (encode i) := by
  rw [State.withFetchWord_mem]
  obtain ⟨rest, hdec⟩ := decodeTableWord_eq_some hd
  have hplaced := Memory.holdsAt_placePair hwf hpc (tableWordBytes nbits w).1 (tableWordBytes nbits w).2
  rw [eq_encode_append_of_decode hdec] at hplaced
  exact holdsAt_append_left hplaced

/-- Settles O25: the placed bytes are the encoding of `i`, and the two writes touch their own addresses only. -/
theorem placedTableWordRunsNext : Obligations.PlacedTableWordRunsNext := by
  intro s nbits w i hwf hpc hd
  refine ⟨step_of_holdsAt rfl (holdsAt_withFetchWord hwf hpc hd), ?_, rfl, rfl, rfl, rfl, fun addr hin h0 h1 => ?_⟩
  · rw [State.withFetchWord_mem]
    exact Memory.placePair_wf hwf _ _ _
  · rw [State.withFetchWord_mem]
    exact Memory.read?_placePair_other _ _ hin h0 h1

end Machine

end Sys2Proof
end

section
/-! PROOFS, family 30_encoding. The encoder's length and first byte, decoding of an encoded instruction, the bytes of a
source line, and the statements of 30_encoding. -/

namespace Sys2Proof

/-! ### Decoding what was encoded -/

/-- The decoder reads an encoded instruction back and leaves what follows it (30_encoding R49, R52, R53). -/
theorem decode_encode_append (i : Instr) (rest : List Byte) : decode (encode i ++ rest) = .ok (i, rest) := by
  cases i <;> rfl

/-- Settles O1: the decoder reads every encoding back, and reads nothing but an instruction's own encoding. -/
theorem decodeInvertsEncode : Obligations.DecodeInvertsEncode :=
  ⟨fun i rest _ => decode_encode_append i rest, fun _ _ _ => eq_encode_append_of_decode⟩

/-- Where an encoded instruction ends is settled by its own bytes: the same stream starts with one encoding only. -/
theorem encode_append_inj {i j : Instr} {bs cs : List Byte} (h : encode i ++ bs = encode j ++ cs) : i = j ∧ bs = cs := by
  have hd := congrArg decode h
  rw [decode_encode_append, decode_encode_append] at hd
  simpa using hd

theorem encode_append_ne_nil (i : Instr) (bs : List Byte) : encode i ++ bs ≠ [] := by
  cases i <;> exact List.cons_ne_nil _ _

/-- Settles O2, by induction on the first list: the two streams start with one instruction and go on alike. -/
theorem encodedStreamsAreUnique : Obligations.EncodedStreamsAreUnique := by
  intro is
  induction is with
  | nil =>
    intro js h
    cases js with
    | nil => rfl
    | cons j js => exact absurd h.symm (encode_append_ne_nil j _)
  | cons i is ih =>
    intro js h
    cases js with
    | nil => exact absurd h (encode_append_ne_nil i _)
    | cons j js =>
      obtain ⟨rfl, hrest⟩ := encode_append_inj h
      rw [ih js hrest]

/-- Settles O5: each byte sequence is the encoding of its instruction and the bytes after it. -/
theorem tableBytesDecode : Obligations.TableBytesDecode :=
  ⟨decode_encode_append (.lda 0xC0#8) [0b00000000#8], decode_encode_append .tax [],
    decode_encode_append .inx [0b10101001#8], decode_encode_append .halt [0b11111111#8]⟩

/-! ### The length of an instruction -/

theorem encoding_statement (i : Instr) : Laws.Encoding.Statement i := by
  cases i with
  | lda imm => exact Laws.Encoding.lda imm
  | tax => exact Laws.Encoding.tax
  | inx => exact Laws.Encoding.inx
  | halt => exact Laws.Encoding.halt

theorem encode_length (i : Instr) : (encode i).length = i.length := by
  obtain ⟨-, hlength, -, -⟩ := encoding_statement i
  exact hlength

theorem encode_append_head? (i : Instr) (bs : List Byte) : (encode i ++ bs).head? = some i.opcode.byte := by
  obtain ⟨-, -, hhead, -⟩ := encoding_statement i
  rw [List.head?_append, hhead, Option.some_or]

/-- Of the four opcode bytes, 0xA9 alone takes an operand byte (30_encoding R49, R52, R56). -/
theorem Instr.length_eq_ite (i : Instr) : i.length = if i.opcode.byte = 0xA9#8 then 2 else 1 := by
  cases i <;> rfl

/-- Settles O4: the bytes read are the instruction's encoding, whose length its first byte gives. -/
theorem lengthComesFromOpcodeByte : Obligations.LengthComesFromOpcodeByte := by
  intro bs rest i hd
  obtain rfl := eq_encode_append_of_decode hd
  constructor
  · rw [List.length_append, encode_length]
  · simp only [encode_append_head?, Option.some.injEq, Instr.length_eq_ite]

/-! ### The bytes of a source line -/

/-- A line with a number outside its byte spells nothing (30_encoding R58). -/
theorem SourceLine.bytes?_of_not_wf {l : SourceLine} (h : l.wf = false) : l.bytes? = none :=
  if_neg (Bool.eq_false_iff.mp h)

theorem SourceLine.bytes?_lda {imm : Nat} (h : imm < 256) :
    (SourceLine.lda imm).bytes? = some (encode (.lda (BitVec.ofNat 8 imm))) :=
  if_pos (decide_eq_true h)

theorem SourceLine.bytes?_byte {v : Nat} (h : v < 256) : (SourceLine.byte v).bytes? = some [BitVec.ofNat 8 v] :=
  if_pos (decide_eq_true h)

/-- Settles O6: a line in range stands for its encoding or its byte, one out of range for nothing. -/
theorem sourceLinesStandForTheirBytes : Obligations.SourceLinesStandForTheirBytes := by
  refine ⟨fun _ => SourceLine.bytes?_lda, fun _ => SourceLine.bytes?_byte, rfl, rfl, rfl, fun n hn => ?_⟩
  have hout : decide (n < 256) = false := decide_eq_false (Nat.not_lt.mpr hn)
  exact ⟨SourceLine.bytes?_of_not_wf hout, SourceLine.bytes?_of_not_wf hout⟩

end Sys2Proof
end

section
/-! PROOFS, family 40_engine. The flag unit and the ALU, the fetch by what stands at `PC`, the decoder's view of a step, a
step's next state, runs of held instructions, how every run ends, and the statements of 40_engine. -/

namespace Sys2Proof.Machine

/-! ### The flag unit and the ALU -/

theorem setZN_eq (v : Byte) (s : State) : setZN v s = { s with p := znByte s.p v } :=
  congrArg s.setP (withBit_withBit_eq_znByte s.p v)

/-- The flag update leaves every bit but Zero and Negative (40_engine R69). -/
theorem znByte_getLsbD_other (p v : Byte) {i : Nat} (h1 : i ≠ 1) (h7 : i ≠ 7) :
    (znByte p v).getLsbD i = p.getLsbD i := by
  by_cases hi : i < 8
  · rw [znByte_getLsbD p v hi, if_neg h7, if_neg h1]
  · rw [BitVec.getLsbD_of_ge _ i (Nat.le_of_not_lt hi), BitVec.getLsbD_of_ge _ i (Nat.le_of_not_lt hi)]

/-- Settles O14: the updated status byte is `znByte`, bit by bit and as a byte. -/
theorem setZNPreservesReservedBits : Obligations.SetZNPreservesReservedBits := by
  intro v s
  rw [setZN_eq]
  refine ⟨fun i h1 h7 => znByte_getLsbD_other s.p v h1 h7, rfl, fun hres => ?_⟩
  have hflags : znByte 0x00#8 v = (v &&& 0x80#8) ||| (if v = 0x00#8 then 0x02#8 else 0x00#8) := by simp [znByte]
  exact (znByte_of_reserved_zero hres v).trans hflags

/-- Settles O13, by bits 1 and 7 of `znByte` and by the meanings' own calls of the flag unit. -/
theorem setZNSetsZeroAndNegative : Obligations.SetZNSetsZeroAndNegative := by
  intro v s
  refine ⟨?_, ?_, rfl, exec_lda v s, exec_tax s, exec_inx s⟩
  · rw [setZN_eq, znByte_getLsbD s.p v (by decide)]
    simp
  · rw [setZN_eq, znByte_getLsbD s.p v (by decide), if_pos rfl]

/-- Settles O15: a byte's addition is modulo 256. -/
theorem aluPassesAndIncrementsModulo256 : Obligations.AluPassesAndIncrementsModulo256 :=
  ⟨fun _ => rfl, fun v => BitVec.toNat_add v 1#8, rfl⟩

/-! ### The fetch, by what stands at `PC` -/

/-- Settles O16: both fetches are `fetchByte`, which reads in bounds and raises the fault out of bounds. -/
theorem fetchReadsThenAdvances : Obligations.FetchReadsThenAdvances := by
  intro s
  constructor
  · intro hout
    have hread := Memory.read?_eq_none.mpr hout
    exact ⟨fetchByte_out hread, fetchByte_out hread⟩
  · intro hin
    have hread := Memory.read?_of_lt hin
    exact ⟨_, hread, fetchByte_in hread, fetchByte_in hread, advancePc_toNat hread⟩

section
variable {s : State}

theorem fetchRunning_of_out (h : s.mem.read? s.pc.toNat = none) :
    fetchRunning s = .ended (raiseFault (.outOfBounds s.pc .opcode) s) := by
  simp [fetchRunning, fetchOpcode, fetchByte_out h]

theorem fetchRunning_of_illegal {b : Byte} (h : s.mem.read? s.pc.toNat = some b) (hb : ¬ legalOpcode b) :
    fetchRunning s = .ended (raiseFault (.unknownOpcode b s.pc) s.advancePc) := by
  simp [fetchRunning, fetchOpcode, fetchByte_in h, Opcode.ofByte?_eq_none.mpr hb]

theorem fetchRunning_of_missingOperand (h : s.mem.read? s.pc.toNat = some 0xA9#8)
    (hv : s.mem.read? (s.pc.toNat + 1) = none) :
    fetchRunning s = .ended (raiseFault (.outOfBounds (s.pc + 1#16) .operand) s.advancePc) := by
  have hpc : s.advancePc.pc.toNat = s.pc.toNat + 1 := advancePc_toNat h
  have hread : s.advancePc.mem.read? s.advancePc.pc.toNat = none := by
    rw [hpc]
    exact hv
  have ho : Opcode.ofByte? 0xA9#8 = some .lda := rfl
  simp [fetchRunning, fetchOpcode, fetchOperand, fetchByte_in h, ho, fetchByte_out hread]

variable (hr : s.rs = .running)
include hr

theorem step_of_ended_running {t : State} (h : fetchRunning s = .ended t) : step s = .next t :=
  step_of_ended ((fetchInstr_running hr).trans h)

theorem stepInstr_of_holdsAt {i : Instr} (h : holdsAt s.mem s.pc.toNat (encode i)) : stepInstr s = some i := by
  simp [stepInstr, fetchInstr_running hr, fetchRunning_of_holdsAt h]

end

/-- Settles O17: the opcode fetch out of bounds. -/
theorem stepPastTheEndFaults : Obligations.StepPastTheEndFaults := by
  intro s hr hout
  exact step_of_ended_running hr (fetchRunning_of_out (Memory.read?_eq_none.mpr hout))

theorem holdsAt_singleton {m : Memory} {addr : Nat} {b : Byte} (h : m.read? addr = some b) : holdsAt m addr [b] := by
  intro k c hk
  match k, hk with
  | 0, hk => cases hk; exact h

/-- Settles O33: the program holds HALT's encoding at `PC`. -/
theorem haltStep : Obligations.HaltStep := by
  intro s hr hread
  have hheld : holdsAt s.mem s.pc.toNat (encode .halt) := holdsAt_singleton hread
  exact ⟨_, step_of_holdsAt hr hheld, rfl, advancePc_toNat hread⟩

/-! ### The decoder's view of a step -/

/-- The stream a step can read is empty, one byte or two, as far as the bytes at `PC` and `PC + 1` are in bounds. -/
theorem streamAt_cases (s : State) :
    (s.mem.read? s.pc.toNat = none ∧ streamAt s = []) ∨
    (∃ b, s.mem.read? s.pc.toNat = some b ∧ s.mem.read? (s.pc.toNat + 1) = none ∧ streamAt s = [b]) ∨
    (∃ b v, s.mem.read? s.pc.toNat = some b ∧ s.mem.read? (s.pc.toNat + 1) = some v ∧ streamAt s = [b, v]) := by
  unfold streamAt
  cases hb : s.mem.read? s.pc.toNat with
  | none => exact .inl ⟨rfl, rfl⟩
  | some b =>
    cases hv : s.mem.read? (s.pc.toNat + 1) with
    | none => exact .inr (.inl ⟨b, rfl, rfl, rfl⟩)
    | some v => exact .inr (.inr ⟨b, v, rfl, rfl, rfl⟩)

theorem holdsAt_streamAt (s : State) : holdsAt s.mem s.pc.toNat (streamAt s) := by
  rcases streamAt_cases s with ⟨-, hs⟩ | ⟨b, hb, -, hs⟩ | ⟨b, v, hb, hv, hs⟩
  · rw [hs]
    intro k c hk
    cases hk
  · rw [hs]
    exact holdsAt_singleton hb
  · rw [hs]
    exact holdsAt_pair hb hv

theorem streamAt_eq_nil {s : State} (h : streamAt s = []) : s.mem.read? s.pc.toNat = none := by
  rcases streamAt_cases s with ⟨hb, -⟩ | ⟨b, -, -, hs⟩ | ⟨b, v, -, -, hs⟩
  · exact hb
  · simp [hs] at h
  · simp [hs] at h

theorem streamAt_eq_singleton {s : State} {b : Byte} (h : streamAt s = [b]) :
    s.mem.read? s.pc.toNat = some b ∧ s.mem.read? (s.pc.toNat + 1) = none := by
  rcases streamAt_cases s with ⟨-, hs⟩ | ⟨c, hc, hn, hs⟩ | ⟨c, v, -, -, hs⟩
  · simp [hs] at h
  · obtain rfl : c = b := by simpa [hs] using h
    exact ⟨hc, hn⟩
  · simp [hs] at h

theorem read?_of_streamAt_head? {s : State} {b : Byte} (h : (streamAt s).head? = some b) :
    s.mem.read? s.pc.toNat = some b := by
  rw [List.head?_eq_getElem?] at h
  exact holdsAt_streamAt s 0 b h

/-- Settles O20: each rejection of the decoder says what stands at `PC`, and that is the fault's cause. -/
theorem stepFaultsWhereTheDecoderRejects : Obligations.StepFaultsWhereTheDecoderRejects := by
  intro s hr
  refine ⟨fun hd => ?_, fun b hd => ?_, fun hd => ?_⟩
  · have hread := streamAt_eq_nil (decode_eq_emptyStream.mp hd)
    exact step_of_ended_running hr (fetchRunning_of_out hread)
  · obtain ⟨hhead, hb⟩ := decode_eq_unknownOpcode.mp hd
    exact step_of_ended_running hr (fetchRunning_of_illegal (read?_of_streamAt_head? hhead) hb)
  · obtain ⟨hop, hnone⟩ := streamAt_eq_singleton (decode_eq_missingOperand.mp hd)
    exact step_of_ended_running hr (fetchRunning_of_missingOperand hop hnone)

/-! ### Every step has a next state -/

theorem exec_total (i : Instr) (s : State) : ∃ t, exec i s = .next t := by
  cases i with
  | lda imm => exact ⟨_, exec_lda imm s⟩
  | tax => exact ⟨_, exec_tax s⟩
  | inx => exact ⟨_, exec_inx s⟩
  | halt => exact ⟨_, exec_halt s⟩

theorem step_total (s : State) : ∃ t, step s = .next t := by
  cases h : fetchInstr s with
  | ended t => exact ⟨t, step_of_ended h⟩
  | got i u =>
    rw [step_of_got h]
    exact exec_total i u

/-- Settles O19: what decodes at `PC` is held there, and a step runs the instruction held at `PC`. -/
theorem stepRunsTheDecodedInstruction : Obligations.StepRunsTheDecodedInstruction := by
  intro s i rest hr hd _
  have hheld : holdsAt s.mem s.pc.toNat (encode i) :=
    holdsAt_append_left (eq_encode_append_of_decode hd ▸ holdsAt_streamAt s)
  have hi := stepInstr_of_holdsAt hr hheld
  obtain ⟨t, hst⟩ := step_total s
  obtain ⟨-, -, hskip, -⟩ := step_of_stepInstr_some hst hi
  exact ⟨step_of_holdsAt hr hheld, hi, hskip⟩

theorem step_finished {s : State} (h : s.rs ≠ .running) : step s = .next s :=
  step_of_ended (fetchInstr_done h)

theorem stepInstr_finished {s : State} (h : s.rs ≠ .running) : stepInstr s = none := by
  simp [stepInstr, fetchInstr_done h]

/-- Settles O24: a step is not taken, or faults, or is the meaning of the instruction it runs. -/
theorem everyStepAnswersANextState : Obligations.EveryStepAnswersANextState := by
  intro s
  obtain ⟨t, hst⟩ := step_total s
  refine ⟨t, hst, fun hr => ?_, fun hr hi => ?_, fun i hi => ?_⟩
  · rw [step_finished hr] at hst
    cases hst
    exact ⟨stepInstr_finished hr, rfl⟩
  · rcases step_of_stepInstr_none hst hi with ⟨hn, -⟩ | ⟨-, -, f, rfl⟩ | ⟨-, -, -, f, rfl⟩
    · exact absurd hr hn
    · exact ⟨f, rfl⟩
    · exact ⟨f, rfl⟩
  · obtain ⟨hr, -, -, he⟩ := step_of_stepInstr_some hst hi
    exact ⟨hr, he⟩

/-- Settles O23, by induction on the number of steps. -/
theorem finishedRunsStayAsTheyAre : Obligations.FinishedRunsStayAsTheyAre := by
  intro k s hr
  induction k with
  | zero => rfl
  | succ k ih => exact runFor_succ_eq_next.mpr ⟨s, step_finished hr, ih⟩

/-! ### A run of held instructions -/

theorem holdsAt_append_right {m : Memory} {addr : Nat} {bs cs : List Byte} (h : holdsAt m addr (bs ++ cs)) :
    holdsAt m (addr + bs.length) cs := by
  intro k b hk
  have hget : (bs ++ cs)[bs.length + k]? = some b := by
    rw [List.getElem?_append_right (Nat.le_add_right _ _), Nat.add_sub_cancel_left, hk]
  rw [Nat.add_assoc]
  exact h _ b hget

theorem execAll_cons_eq_next {i : Instr} {is : List Instr} {s t : State} :
    execAll (i :: is) s = .next t ↔ ∃ u, exec i (s.skip i.length) = .next u ∧ execAll is u = .next t := by
  rw [execAll]
  cases exec i (s.skip i.length) <;> simp

/-- Settles O42, by induction on the instructions: the first one's step ends running, past its bytes, on the same
program. -/
theorem runIsTheMeaningsInOrder : Obligations.RunIsTheMeaningsInOrder := by
  intro is
  induction is with
  | nil =>
    intro s hr _ _
    exact ⟨s, rfl, rfl, hr, rfl⟩
  | cons i is ih =>
    intro s hr hnot hheld
    rw [List.flatMap_cons] at hheld ⊢
    have hfirst := holdsAt_append_left hheld
    obtain ⟨u, he⟩ := exec_total i (s.skip i.length)
    have hst : step s = .next u := (step_of_holdsAt hr hfirst).trans he
    have hpc : u.pc.toNat = s.pc.toNat + (encode i).length := by
      rw [step_pc_of_some hst (stepInstr_of_holdsAt hr hfirst), encode_length]
    have hru : u.rs = .running := by
      rw [exec_rs he, if_neg (hnot i List.mem_cons_self), State.skip_rs, hr]
    have hrest : holdsAt u.mem u.pc.toNat (is.flatMap encode) := by
      rw [step_mem hst, hpc]
      exact holdsAt_append_right hheld
    obtain ⟨t, hrun, hall, hrt, hpct⟩ := ih u hru (fun j hj => hnot j (List.mem_cons_of_mem i hj)) hrest
    refine ⟨t, runFor_succ_eq_next.mpr ⟨u, hst, hrun⟩, execAll_cons_eq_next.mpr ⟨u, he, hall⟩, hrt, ?_⟩
    rw [hpct, hpc, List.length_append, Nat.add_assoc]

/-! ### Every run ends -/

theorem instr_length_pos (i : Instr) : 0 < i.length := by
  cases i <;> exact Nat.succ_pos _

/-- A step that leaves the run under way has moved `PC` up, to `L` at most (40_engine R73). -/
theorem step_pc_lt_of_running {s t : State} (hst : step s = .next t) (hr : t.rs = .running) :
    s.pc.toNat < t.pc.toNat ∧ t.pc.toNat ≤ s.mem.len.toNat := by
  cases hi : stepInstr s with
  | none =>
    rcases step_of_stepInstr_none hst hi with ⟨hn, rfl⟩ | ⟨-, -, f, rfl⟩ | ⟨-, -, -, f, rfl⟩
    · exact absurd hr hn
    · cases hr
    · cases hr
  | some i =>
    obtain ⟨-, hle, -, -⟩ := step_of_stepInstr_some hst hi
    rw [step_pc_of_some hst hi]
    exact ⟨Nat.lt_add_of_pos_right (instr_length_pos i), hle⟩

/-- A run is over after more steps than there are bytes from `PC` on. -/
theorem runFor_ends {n : Nat} {s : State} (h : s.mem.len.toNat - s.pc.toNat < n) :
    ∃ t, runFor n s = .next t ∧ t.rs ≠ .running := by
  induction n generalizing s with
  | zero => exact absurd h (Nat.not_lt_zero _)
  | succ n ih =>
    obtain ⟨u, hst⟩ := step_total s
    by_cases hu : u.rs = .running
    · obtain ⟨hlt, hle⟩ := step_pc_lt_of_running hst hu
      have hleft : u.mem.len.toNat - u.pc.toNat < n := by
        rw [step_mem hst]
        omega
      obtain ⟨t, hrun, ht⟩ := ih hleft
      exact ⟨t, runFor_succ_eq_next.mpr ⟨u, hst, hrun⟩, ht⟩
    · exact ⟨u, runFor_succ_eq_next.mpr ⟨u, hst, finishedRunsStayAsTheyAre n u hu⟩, hu⟩

/-- Settles O49: `L - PC + 1` steps suffice. -/
theorem everyRunEndsWithinItsLength : Obligations.EveryRunEndsWithinItsLength := by
  intro s _
  obtain ⟨t, hrun, ht⟩ := runFor_ends (Nat.lt_succ_self (s.mem.len.toNat - s.pc.toNat))
  exact ⟨_, t, le_refl _, hrun, ht⟩

/-! ### How a run ends -/

/-- What every step keeps holds at the end of a run that it holds at the start of. -/
theorem runFor_keeps {Inv : State → Prop} (hstep : ∀ s t, Inv s → step s = .next t → Inv t) {k : Nat} {s t : State}
    (hrun : runFor k s = .next t) (hs : Inv s) : Inv t := by
  induction k generalizing s with
  | zero => cases hrun; exact hs
  | succ k ih =>
    obtain ⟨u, hst, hrest⟩ := runFor_succ_eq_next.mp hrun
    exact ih hrest (hstep s u hs hst)

/-- A state just faulted agrees with the program as soon as its record does. -/
theorem endAgrees_raiseFault {f : Fault} {s : State} (h : recordAgrees (raiseFault f s) f) :
    endAgrees (raiseFault f s) := by
  constructor
  · intro hhalted
    cases hhalted
  · intro g hg
    cases hg
    exact h

/-- A step keeps the agreement of the run's end with the program: only the three faults write a record, and only HALT
halts (43_control R77; 60_exceptions R80 to R82). -/
theorem step_keeps_endAgrees {s t : State} (hinv : RunInv s) (hend : endAgrees s) (hst : step s = .next t) :
    endAgrees t := by
  obtain ⟨-, hpc, -, hfr⟩ := hinv
  rcases step_cases hst with ⟨-, -, rfl⟩ | ⟨-, -, hout, rfl⟩ | ⟨b, -, -, hop, hb, rfl⟩ | ⟨-, -, hop, hlen, rfl⟩ |
    ⟨i, hr, -, hop, -, hskip, he⟩
  · exact hend
  · exact endAgrees_raiseFault ⟨rfl, BitVec.eq_of_toNat_eq (le_antisymm hpc hout)⟩
  · exact endAgrees_raiseFault ⟨(advancePc_toNat hop).symm, hop, hb⟩
  · have hadv := advancePc_toNat hop
    refine endAgrees_raiseFault ⟨rfl, BitVec.eq_of_toNat_eq (hadv.trans hlen.symm), ?_, ?_⟩
    · rw [hadv]
      exact Nat.succ_pos _
    · rw [hadv]
      exact hop
  · obtain ⟨hpct, hfrt, hmem⟩ := exec_frame he
    have hrs := exec_rs he
    refine ⟨fun hh => ?_, fun f hf => ?_⟩
    · obtain rfl : i = .halt := by
        by_contra hne
        rw [if_neg hne, State.skip_rs, hr] at hrs
        cases hrs.symm.trans hh
      have hpct' : t.pc.toNat = s.pc.toNat + 1 := (congrArg BitVec.toNat hpct).trans hskip
      rw [hpct', hmem]
      exact ⟨Nat.succ_pos _, hop⟩
    · have hfault : s.rs = .faulted := hfr.mp (by rw [← State.skip_fr s i.length, ← hfrt, hf]; rfl)
      cases hr.symm.trans hfault

/-- The invariant and the end's agreement, kept together. -/
theorem runFor_keeps_invariants {k : Nat} {s t : State} (hrun : runFor k s = .next t) (hs : RunInv s ∧ endAgrees s) :
    RunInv t ∧ endAgrees t := by
  refine runFor_keeps (Inv := fun u => RunInv u ∧ endAgrees u) ?_ hrun hs
  rintro u v ⟨hinv, hend⟩ hst
  exact ⟨stepKeepsTheInvariant u v hinv hst, step_keeps_endAgrees hinv hend hst⟩

section
variable {program : List Byte} {t : State} (hfits : program.length ≤ 0xFFFF) (hmem : t.mem = Memory.ofBytes program)
  (hinv : RunInv t) (hend : endAgrees t)
include hfits hmem hinv hend

/-- A run of a program that halted stands one past a HALT byte of it (43_control R77). -/
theorem halted_result (hr : t.rs = .halted) :
    t.fr = none ∧ 0 < t.pc.toNat ∧ program[t.pc.toNat - 1]? = some 0x00#8 := by
  obtain ⟨-, -, -, hfr⟩ := hinv
  obtain ⟨hhalted, -⟩ := hend
  obtain ⟨hpos, hbyte⟩ := hhalted hr
  rw [hmem, Memory.read?_ofBytes hfits] at hbyte
  have hnone : t.fr = none := by
    rw [← Option.not_isSome_iff_eq_none, hfr, hr]
    decide
  exact ⟨hnone, hpos, hbyte⟩

/-- A run of a program that faulted ran out of its bytes, at an opcode or at the operand of an LDA that is its last byte, or
met an illegal byte of it (60_exceptions R80, R81). -/
theorem faulted_result (hr : t.rs = .faulted) :
    (t.fr = some (.outOfBounds t.pc .opcode) ∧ t.pc.toNat = program.length) ∨
    (t.fr = some (.outOfBounds t.pc .operand) ∧ t.pc.toNat = program.length ∧ program.getLast? = some 0xA9#8) ∨
    (∃ op offset, t.fr = some (.unknownOpcode op offset) ∧ offset.toNat + 1 = t.pc.toNat ∧
      program[offset.toNat]? = some op ∧ ¬ legalOpcode op) := by
  obtain ⟨-, -, -, hfr⟩ := hinv
  obtain ⟨-, hrecord⟩ := hend
  have hread := Memory.read?_ofBytes hfits
  have hlen : t.mem.len.toNat = program.length := by rw [hmem, Memory.ofBytes_len_toNat hfits]
  obtain ⟨f, hf⟩ := Option.isSome_iff_exists.mp (hfr.mpr hr)
  have hagrees := hrecord f hf
  cases f with
  | outOfBounds addr phase =>
    cases phase with
    | opcode =>
      obtain ⟨rfl, hL⟩ := hagrees
      exact .inl ⟨hf, (congrArg BitVec.toNat hL).trans hlen⟩
    | operand =>
      obtain ⟨rfl, hL, -, hlast⟩ := hagrees
      have hpc : t.pc.toNat = program.length := (congrArg BitVec.toNat hL).trans hlen
      rw [hmem, hread, hpc] at hlast
      exact .inr (.inl ⟨hf, hpc, List.getLast?_eq_getElem?.trans hlast⟩)
  | unknownOpcode op offset =>
    obtain ⟨hoffset, hop, hillegal⟩ := hagrees
    rw [hmem, hread] at hop
    exact .inr (.inr ⟨op, offset, hf, hoffset, hop, hillegal⟩)

end

/-- Settles O50: the run is over after `L + 1` steps, and there the invariants say which of the four ends it came to. -/
theorem everyProgramRunsToItsResult : Obligations.EveryProgramRunsToItsResult := by
  intro program hfits
  have hlaunch := launch_of_fits hfits
  have hlen := Memory.ofBytes_len_toNat hfits
  have hleft : (startState (Memory.ofBytes program)).mem.len.toNat - (startState (Memory.ofBytes program)).pc.toNat <
      program.length + 1 := by
    rw [startState_mem, hlen]
    exact Nat.lt_succ_of_le (Nat.sub_le _ _)
  obtain ⟨t, hrun, hdone⟩ := runFor_ends hleft
  obtain ⟨hinv₀, hend₀, -⟩ := launchMeetsTheInvariant program _ hlaunch
  obtain ⟨hinv, hend⟩ := runFor_keeps_invariants hrun ⟨hinv₀, hend₀⟩
  have hmem : t.mem = Memory.ofBytes program := runFor_mem hrun
  have hpc : t.pc.toNat ≤ program.length := by
    obtain ⟨-, hle, -, -⟩ := hinv
    rwa [hmem, hlen] at hle
  refine ⟨_, t, hlaunch, hrun, hpc, ?_⟩
  cases hr : t.rs with
  | running => exact absurd hr hdone
  | halted => exact .inl ⟨rfl, halted_result hfits hmem hinv hend hr⟩
  | faulted =>
    right
    rcases faulted_result hfits hmem hinv hend hr with hopcode | hoperand | ⟨op, offset, hunknown⟩
    · exact .inl ⟨rfl, hopcode⟩
    · exact .inr (.inl ⟨rfl, hoperand⟩)
    · exact .inr (.inr ⟨op, offset, rfl, hunknown⟩)

end Sys2Proof.Machine
end

section
/-! PROOFS, family 41_load_transfer. The two flags of the updated status byte, the next states of LDA and TAX written out,
and the statements of 41_load_transfer. -/

namespace Sys2Proof.Machine

/-! ### The two flags of the updated status byte -/

theorem znByte_zeroFlag (p v : Byte) : (znByte p v).getLsbD 1 = true ↔ v = 0x00#8 := by
  rw [znByte_getLsbD p v (by decide)]
  simp

theorem znByte_negativeFlag (p v : Byte) : (znByte p v).getLsbD 7 = v.getLsbD 7 := by
  rw [znByte_getLsbD p v (by decide), if_pos rfl]

/-! ### The meanings, their next state written out -/

theorem exec_lda_eq (imm : Byte) (s : State) : exec (.lda imm) s = .next { s with a := imm, p := znByte s.p imm } := by
  rw [exec_lda, setZN_eq]
  rfl

theorem exec_tax_eq (s : State) : exec .tax s = .next { s with x := s.a, p := znByte s.p s.a } := by
  rw [exec_tax, setZN_eq]
  rfl

/-- Settles O26: the whole next state, and the two flags of its status byte. -/
theorem ldaLoadsTheOperand : Obligations.LdaLoadsTheOperand := fun imm s =>
  ⟨_, exec_lda_eq imm s, rfl, znByte_zeroFlag s.p imm, znByte_negativeFlag s.p imm, fun _ => rfl⟩

/-- Settles O27: the whole next state, and the two flags of its status byte. -/
theorem taxCopiesTheAccumulator : Obligations.TaxCopiesTheAccumulator := fun s =>
  ⟨_, exec_tax_eq s, rfl, znByte_zeroFlag s.p s.a, znByte_negativeFlag s.p s.a, fun _ => rfl⟩

/-! ### The steps -/

/-- Where the byte at `PC` is the last one, `L` is the advanced `PC`. -/
theorem len_eq_advancedPc {s : State} {b : Byte} (hread : s.mem.read? s.pc.toNat = some b)
    (hlast : s.mem.len.toNat = s.pc.toNat + 1) : s.mem.len = s.pc + 1#16 :=
  BitVec.eq_of_toNat_eq (hlast.trans (advancePc_toNat hread).symm)

/-- Settles O30: with its operand the program holds LDA's encoding at `PC`; without it the operand fetch faults at `L`. -/
theorem ldaStep : Obligations.LdaStep := by
  intro s hr hread
  constructor
  · intro imm himm
    have hheld : holdsAt s.mem s.pc.toNat (encode (.lda imm)) := holdsAt_pair hread himm
    have hst := (step_of_holdsAt hr hheld).trans (exec_lda_eq imm _)
    exact ⟨_, hst, rfl, step_pc_of_some hst (stepInstr_of_holdsAt hr hheld), znByte_zeroFlag s.p imm,
      znByte_negativeFlag s.p imm, fun _ => znByte_getLsbD_other s.p imm⟩
  · intro hlast
    have hnone : s.mem.read? (s.pc.toNat + 1) = none := Memory.read?_eq_none.mpr hlast.le
    rw [len_eq_advancedPc hread hlast]
    exact step_of_ended_running hr (fetchRunning_of_missingOperand hread hnone)

/-- Settles O31: the program holds TAX's encoding at `PC`. -/
theorem taxStep : Obligations.TaxStep := by
  intro s hr hread
  have hheld : holdsAt s.mem s.pc.toNat (encode .tax) := holdsAt_singleton hread
  have hst := (step_of_holdsAt hr hheld).trans (exec_tax_eq _)
  exact ⟨_, hst, rfl, advancePc_toNat hread, znByte_zeroFlag s.p s.a, znByte_negativeFlag s.p s.a,
    fun _ => znByte_getLsbD_other s.p s.a⟩

end Sys2Proof.Machine
end

section
/-! PROOFS, family 42_increment. The byte increment and the two flags it sets, INX's next state written out, INX repeated,
and the statements of 42_increment. -/

namespace Sys2Proof.Machine

/-! ### The byte increment -/

/-- Only 0xFF increments to zero (42_increment R76). -/
theorem inc_eq_zero {v : Byte} : v + 1#8 = 0x00#8 ↔ v = 0xFF#8 := by
  bv_omega

/-- The bytes 0x7F to 0xFE, and no others, increment to a byte with bit 7 set (42_increment R76). -/
theorem inc_getLsbD_seven {v : Byte} : (v + 1#8).getLsbD 7 = true ↔ 0x7F ≤ v.toNat ∧ v.toNat ≤ 0xFE := by
  have hsign : (v + 1#8).getLsbD 7 = decide (128 ≤ (v + 1#8).toNat) := BitVec.msb_eq_decide (v + 1#8)
  rw [hsign, decide_eq_true_iff, BitVec.toNat_add]
  have hv := v.isLt
  simp only [BitVec.toNat_ofNat]
  omega

theorem znByte_inc_zeroFlag (p v : Byte) : (znByte p (v + 1#8)).getLsbD 1 = true ↔ v = 0xFF#8 :=
  (znByte_zeroFlag p _).trans inc_eq_zero

theorem znByte_inc_negativeFlag (p v : Byte) :
    (znByte p (v + 1#8)).getLsbD 7 = true ↔ 0x7F ≤ v.toNat ∧ v.toNat ≤ 0xFE := by
  rw [znByte_negativeFlag, inc_getLsbD_seven]

/-! ### The meaning -/

theorem exec_inx_eq (s : State) :
    exec .inx s = .next { s with x := s.x + 1#8, p := znByte s.p (s.x + 1#8) } := by
  rw [exec_inx, setZN_eq]
  rfl

/-- Settles O28: the whole next state, and the two flags of its status byte by the old `X`. -/
theorem inxIncrementsTheIndex : Obligations.InxIncrementsTheIndex := fun s =>
  ⟨_, exec_inx_eq s, rfl, BitVec.toNat_add s.x 1#8, znByte_inc_zeroFlag s.p s.x, znByte_inc_negativeFlag s.p s.x,
    fun _ => rfl⟩

/-! ### The step, and INX repeated -/

/-- `n` INX in order add `n` to `X` modulo 256 and leave `A`. -/
theorem execAll_replicate_inx (n : Nat) (s : State) :
    ∃ t, execAll (List.replicate n .inx) s = .next t ∧ t.x = s.x + BitVec.ofNat 8 n ∧ t.a = s.a := by
  induction n generalizing s with
  | zero => exact ⟨s, rfl, (BitVec.add_zero s.x).symm, rfl⟩
  | succ n ih =>
    have hfirst := exec_inx_eq (s.skip Instr.inx.length)
    obtain ⟨t, hrest, hx, ha⟩ := ih { s.skip Instr.inx.length with x := s.x + 1#8, p := znByte s.p (s.x + 1#8) }
    refine ⟨t, execAll_cons_eq_next.mpr ⟨_, hfirst, hrest⟩, ?_, ha⟩
    rw [hx, BitVec.ofNat_add, BitVec.add_comm (BitVec.ofNat 8 n), ← BitVec.add_assoc]

/-- Settles O32: the program holds INX's encoding at `PC`, and 256 increments add 0 modulo 256. -/
theorem inxStep : Obligations.InxStep := by
  constructor
  · intro s hr hread
    have hheld : holdsAt s.mem s.pc.toNat (encode .inx) := holdsAt_singleton hread
    have hst := (step_of_holdsAt hr hheld).trans (exec_inx_eq _)
    exact ⟨_, hst, rfl, BitVec.toNat_add s.x 1#8, advancePc_toNat hread, znByte_inc_zeroFlag s.p s.x,
      znByte_inc_negativeFlag s.p s.x, fun _ => znByte_getLsbD_other s.p (s.x + 1#8)⟩
  · intro s
    obtain ⟨t, hall, hx, ha⟩ := execAll_replicate_inx 256 s
    exact ⟨t, hall, hx.trans (BitVec.add_zero s.x), ha⟩

end Sys2Proof.Machine
end

section
/-! PROOFS, family 43_control. HALT's meaning, the program bytes a step looks at, and the statements of 43_control. -/

namespace Sys2Proof.Machine

/-- Settles O46: `step_keeps_endAgrees`, by the three faults and by HALT being the one instruction that halts. -/
theorem stepKeepsTheEndAgreement : Obligations.StepKeepsTheEndAgreement := fun _ _ => step_keeps_endAgrees

/-- Settles O29: the meaning is `State.stop`, which writes `RS` alone. -/
theorem haltStops : Obligations.HaltStops := fun s => ⟨_, exec_halt s, rfl, fun _ => rfl⟩

/-! ### The program bytes a step looks at -/

/-- The state is not the end of a run that ran out of bytes. -/
def notOutOfBytes (s : State) : Prop :=
  s.rs ≠ .faulted ∨ ∃ op offset, s.fr = some (.unknownOpcode op offset)

theorem not_notOutOfBytes_raiseFault (addr : Addr) (phase : FetchPhase) (s : State) :
    ¬ notOutOfBytes (raiseFault (.outOfBounds addr phase) s) := by
  simp [notOutOfBytes]

/-- Meanings do not look at the program. -/
theorem exec_mem {i : Instr} {s t : State} (h : exec i s = .next t) (m : Memory) :
    exec i { s with mem := m } = .next { t with mem := m } := by
  cases i <;> cases h <;> rfl

theorem holdsAt_encode {m : Memory} {addr : Nat} {i : Instr} (hop : m.read? addr = some i.opcode.byte)
    (himm : ∀ imm, i = .lda imm → m.read? (addr + 1) = some imm) : holdsAt m addr (encode i) := by
  cases i with
  | lda imm => exact holdsAt_pair hop (himm imm rfl)
  | tax => exact holdsAt_singleton hop
  | inx => exact holdsAt_singleton hop
  | halt => exact holdsAt_singleton hop

theorem holdsAt_of_agree {m m' : Memory} {addr n : Nat} {bs : List Byte} (h : holdsAt m addr bs)
    (hle : addr + bs.length ≤ n) (hagree : ∀ a, a < n → m'.read? a = m.read? a) : holdsAt m' addr bs := by
  intro k b hk
  obtain ⟨hlt, -⟩ := List.getElem?_eq_some_iff.mp hk
  rw [hagree _ (by omega)]
  exact h k b hk

/-- A step that did not run out of bytes goes the same way on a program that agrees below the `PC` it leaves. -/
theorem step_of_agree {s t : State} {m : Memory} (hst : step s = .next t) (ht : notOutOfBytes t)
    (hagree : ∀ addr, addr < t.pc.toNat → m.read? addr = s.mem.read? addr) :
    step { s with mem := m } = .next { t with mem := m } := by
  rcases step_cases hst with ⟨hr, -, rfl⟩ | ⟨-, -, -, rfl⟩ | ⟨b, hr, -, hop, hb, rfl⟩ | ⟨-, -, -, -, rfl⟩ |
    ⟨i, hr, -, hop, himm, hskip, he⟩
  · exact step_finished hr
  · exact absurd ht (not_notOutOfBytes_raiseFault _ _ _)
  · have hlt : s.pc.toNat < (s.pc + 1#16).toNat := by
      rw [advancePc_toNat hop]
      exact Nat.lt_succ_self _
    exact step_of_ended_running (s := { s with mem := m }) hr (fetchRunning_of_illegal ((hagree _ hlt).trans hop) hb)
  · exact absurd ht (not_notOutOfBytes_raiseFault _ _ _)
  · obtain ⟨hpc, -, -⟩ := exec_frame he
    have hle : s.pc.toNat + (encode i).length ≤ t.pc.toNat := by rw [hpc, hskip, encode_length]
    have hheld : holdsAt m s.pc.toNat (encode i) := holdsAt_of_agree (holdsAt_encode hop himm) hle hagree
    exact (step_of_holdsAt (s := { s with mem := m }) hr hheld).trans (exec_mem he m)

/-! ### The program bytes a run looks at -/

/-- No step moves `PC` back (43_control: the core has no jump). -/
theorem step_pc_le {s t : State} (hst : step s = .next t) : s.pc.toNat ≤ t.pc.toNat := by
  obtain ⟨-, -, hnone⟩ := pcAdvancesByTheBytesConsumed s t hst
  cases hi : stepInstr s with
  | none =>
    rw [hnone hi]
    exact Nat.le_add_right _ _
  | some i =>
    rw [step_pc_of_some hst hi]
    exact Nat.le_add_right _ _

theorem runFor_pc_le {k : Nat} {s t : State} (hrun : runFor k s = .next t) : s.pc.toNat ≤ t.pc.toNat :=
  runFor_keeps (Inv := fun u => s.pc.toNat ≤ u.pc.toNat) (fun _ _ hu hst => hu.trans (step_pc_le hst)) hrun (le_refl _)

/-- A run that ends without running out of bytes did not run out of them where it began. -/
theorem notOutOfBytes_of_runFor {k : Nat} {s t : State} (hrun : runFor k s = .next t) (ht : notOutOfBytes t) :
    notOutOfBytes s := by
  by_cases hr : s.rs = .faulted
  · have hstay := finishedRunsStayAsTheyAre k s (by simp [hr])
    cases hstay.symm.trans hrun
    exact ht
  · exact .inl hr

/-- Settles O41, by induction on the number of steps: each step reads below the `PC` it leaves, and `PC` never moves
back. -/
theorem bytesPastTheEndAreNeverRead : Obligations.BytesPastTheEndAreNeverRead := by
  intro k
  induction k with
  | zero =>
    intro s t m h _ _ _
    cases h
    rfl
  | succ k ih =>
    intro s t m h ht hlen hagree
    obtain ⟨u, hst, hrun⟩ := runFor_succ_eq_next.mp h
    have hfirst : step { s with mem := m } = .next { u with mem := m } :=
      step_of_agree hst (notOutOfBytes_of_runFor hrun ht) fun addr haddr =>
        hagree addr (haddr.trans_le (runFor_pc_le hrun))
    have hrest : runFor k { u with mem := m } = .next { t with mem := m } :=
      ih u t m hrun ht hlen (by rwa [step_mem hst])
    exact runFor_succ_eq_next.mpr ⟨_, hfirst, hrest⟩

end Sys2Proof.Machine
end

section
/-! PROOFS, family 60_exceptions. The host's moves once a run is over, that no meaning faults, and the statements of
60_exceptions. -/

namespace Sys2Proof.Machine

/-! ### The host's moves once the run is over -/

section
variable {s : State} (hr : s.rs ≠ .running)
include hr

theorem runDone_of_finished : runDone s = true :=
  decide_eq_true hr

theorem hostStart_of_finished : hostStart s = .next (startState s.mem) :=
  if_pos (runDone_of_finished hr)

/-- A load of a program that fits writes the program memory alone (60_exceptions R94). -/
theorem hostLoad_of_finished {program : List Byte} (h : program.length ≤ 0xFFFF) :
    hostLoad program s = .next { s with mem := Memory.ofBytes program } := by
  have hfits : programFits program = true := decide_eq_true h
  rw [hostLoad, if_pos (runDone_of_finished hr), if_pos hfits]

/-- A load and a start give what a fresh block's launch gives (70_reset_and_hazards R98). -/
theorem hostStart_loaded_eq_launch {program : List Byte} (h : program.length ≤ 0xFFFF) :
    hostStart { s with mem := Memory.ofBytes program } = launch program :=
  (hostStart_of_finished (s := { s with mem := Memory.ofBytes program }) hr).trans (launch_of_fits h).symm

theorem readState_of_finished : readState s =
    some { a := s.a, x := s.x, p := s.p, zero := zeroFlag s.p, negative := negativeFlag s.p,
           pc := s.pc, rs := s.rs, fr := s.fr } :=
  if_pos (runDone_of_finished hr)

end

/-- Settles O10: `start` answers the start state of the program it finds, and a load writes the program memory alone. -/
theorem startForgetsTheLastRun : Obligations.StartForgetsTheLastRun := by
  intro s hr
  constructor
  · exact ⟨_, hostStart_of_finished hr, rfl, rfl, rfl, rfl, rfl, rfl, rfl⟩
  · intro program h
    exact ⟨_, hostLoad_of_finished hr h, rfl, Memory.ofBytes_len_toNat h, Memory.read?_ofBytes h,
      hostStart_loaded_eq_launch hr h⟩

/-- Settles O12: the host's two views of `P` are its bits 1 and 7. -/
theorem hostReadsTheResultAfterARun : Obligations.HostReadsTheResultAfterARun := fun _ hr =>
  ⟨runDone_of_finished hr, _, readState_of_finished hr, rfl, rfl, rfl, rfl, rfl, rfl, rfl, rfl⟩

/-! ### The faults of a step -/

/-- No meaning raises a fault: only the fetch and the dispatch do (60_exceptions R80, R81). -/
theorem exec_not_faulted {i : Instr} {s t : State} (hr : s.rs = .running) (h : exec i s = .next t) :
    t.rs ≠ .faulted := by
  rw [exec_rs h, hr]
  by_cases hi : i = .halt
  · simp [hi]
  · simp [hi]

/-- A step from a running state that ends Faulted ran no instruction. -/
theorem stepInstr_of_faulted {s t : State} (hst : step s = .next t) (hf : t.rs = .faulted) : stepInstr s = none := by
  cases hi : stepInstr s with
  | none => rfl
  | some i =>
    obtain ⟨hr, -, -, he⟩ := step_of_stepInstr_some hst hi
    exact absurd hf (exec_not_faulted ((State.skip_rs s i.length).trans hr) he)

/-- Settles O21: a faulting step ran no instruction, and its fault is one of the three of the fetch and dispatch. -/
theorem faultLeavesRegistersUnchanged : Obligations.FaultLeavesRegistersUnchanged := by
  intro s t hr hst hf
  have hnone := stepInstr_of_faulted hst hf
  obtain ⟨ha, hx, hp, hmem⟩ := step_none_frame hst hnone
  refine ⟨ha, hx, hp, fun addr => by rw [hmem], hnone, ?_⟩
  rcases step_cases hst with ⟨hn, -, -⟩ | ⟨-, -, -, rfl⟩ | ⟨b, -, -, hop, -, rfl⟩ | ⟨-, -, hop, -, rfl⟩ |
    ⟨i, -, hi, -⟩
  · exact absurd hr hn
  · exact .inl ⟨rfl, rfl⟩
  · exact .inr (.inr ⟨b, rfl, advancePc_toNat hop⟩)
  · exact .inr (.inl ⟨rfl, advancePc_toNat hop⟩)
  · cases hnone.symm.trans hi

/-- Settles O18: the four bytes shut out are all the legal ones, and the record's offset is the address the byte was
fetched from. -/
theorem stepOnUnknownOpcodeFaults : Obligations.StepOnUnknownOpcodeFaults := by
  intro s b hr hread hlda htax hinx hhalt
  have hillegal : ¬ legalOpcode b := by simp [hlda, htax, hinx, hhalt]
  have hoffset : s.pc + 1#16 - 1#16 = s.pc := BitVec.add_sub_cancel s.pc 1#16
  refine ⟨_, step_of_ended_running hr (fetchRunning_of_illegal hread hillegal), ?_, rfl, rfl⟩
  rw [raiseFault_fr, raiseFault_pc, State.advancePc_pc, hoffset]

/-- Settles O22: the code is the kind's, whatever is recorded. -/
theorem faultKindsHaveTheirCodes : Obligations.FaultKindsHaveTheirCodes :=
  ⟨fun _ _ => rfl, fun _ _ => rfl⟩

end Sys2Proof.Machine
end

section
/-! PROOFS, family 70_reset_and_hazards. What the host is refused: a program that does not fit, and every move during a
run. -/

namespace Sys2Proof.Machine

/-! ### A program that does not fit -/

section
variable {program : List Byte} (h : 0xFFFF < program.length)
include h

theorem programFits_of_tooLong : ¬ programFits program = true := fun hfits =>
  absurd (of_decide_eq_true hfits : program.length ≤ 0xFFFF) (Nat.not_le_of_lt h)

theorem launch_of_tooLong : launch program = .refused (.programTooLong program.length) :=
  if_neg (programFits_of_tooLong h)

/-- Once the run is over the length is all a load looks at (70_reset_and_hazards R100). -/
theorem hostLoad_of_tooLong {s : State} (hr : s.rs ≠ .running) :
    hostLoad program s = .refused (.programTooLong program.length) := by
  rw [hostLoad, if_pos (runDone_of_finished hr), if_neg (programFits_of_tooLong h)]

end

/-- Settles O9: neither the launch nor a load after a run writes a program that does not fit. -/
theorem tooLongProgramIsRefused : Obligations.TooLongProgramIsRefused := fun _ h =>
  ⟨launch_of_tooLong h, fun _ => hostLoad_of_tooLong h⟩

/-! ### The host's moves during a run -/

section
variable {s : State} (hr : s.rs = .running)
include hr

theorem runDone_of_running : ¬ runDone s = true := fun hdone =>
  absurd hr (of_decide_eq_true hdone)

theorem hostLoad_of_running (program : List Byte) : hostLoad program s = .refused .hostMoveDuringRun :=
  if_neg (runDone_of_running hr)

theorem hostStart_of_running : hostStart s = .refused .hostMoveDuringRun :=
  if_neg (runDone_of_running hr)

theorem readState_of_running : readState s = none :=
  if_neg (runDone_of_running hr)

end

/-- Settles O11: each of the host's moves asks first whether the run is done, and a running state's is not. -/
theorem hostHasNoMoveDuringARun : Obligations.HostHasNoMoveDuringARun := fun _ hr =>
  ⟨Bool.eq_false_of_not_eq_true (runDone_of_running hr), hostLoad_of_running hr, hostStart_of_running hr,
    readState_of_running hr⟩

end Sys2Proof.Machine
end
